-- ==== Sys2Proof/Word.lean ====
section
/-! DEFINITION. The words of the machine (spec 00_scope.md R6, R10): bytes of memory, 16-bit register and
operand values, and the ten register slots a selector can name (10_state.md R22). -/

namespace Sys2Proof

/-- One byte of memory or of an instruction's encoding (u8). -/
abbrev Byte := BitVec 8

/-- The 16-bit value of every register, LITERAL and ADDRESS (`u16` of R10). -/
abbrev Word := BitVec 16

/-- The ten distinct slots a REGISTER operand can name (R22, R24): the eight general registers, the program
counter and the flags register. -/
inductive Slot where
  | r0 | r1 | r2 | r3 | r4 | r5 | r6 | r7
  | pc
  | flags
deriving DecidableEq, Repr

/-- Every slot, in the order of R22's table. -/
def Slot.all : List Slot :=
  [.r0, .r1, .r2, .r3, .r4, .r5, .r6, .r7, .pc, .flags]

end Sys2Proof
end

