-- ==== Sys2Proof/Config.lean ====
section
/-! DEFINITION. The parameters of the machine (spec 00_scope.md R6): `MEMORY_SIZE`, `OPCODE_MAP` and
`SELECTOR_MAP`, fixed when an instance is constructed and changed by nothing afterwards. The spec decides every
value it leaves the source's silence on, so the machine has NO free value (no opaque constant stands here). The
default bytes of the two maps stand in Decode.lean. -/

namespace Sys2Proof

/-- The 29 mnemonics, in the order of 30_encoding.md R84's table. -/
inductive Mnemonic where
  | halt | compare | jump | jumpeq | jumplt | jumpgt | jumplte | jumpgte
  | movlr | movrr | movlm | movrm | movemr | movlir | moveirr | moveirm
  | moveimr | add | subtract | multiply | divide | increment | decrement | and
  | or | xor | not | shiftleft | shiftright
deriving DecidableEq, Repr

/-- Every mnemonic, in the order of R84's table. -/
def Mnemonic.all : List Mnemonic :=
  [.halt, .compare, .jump, .jumpeq, .jumplt, .jumpgt, .jumplte, .jumpgte,
   .movlr, .movrr, .movlm, .movrm, .movemr, .movlir, .moveirr, .moveirm,
   .moveimr, .add, .subtract, .multiply, .divide, .increment, .decrement, .and,
   .or, .xor, .not, .shiftleft, .shiftright]

/-- The three operand kinds (R81). -/
inductive OperandKind where
  | register
  | literal
  | address
deriving DecidableEq, Repr

/-- `OPCODE_MAP` (R6): the byte that selects each of the 29 mnemonics. -/
structure OpcodeMap where
  (halt compare jump jumpeq jumplt jumpgt jumplte jumpgte
  movlr movrr movlm movrm movemr movlir moveirr moveirm
  moveimr add subtract multiply divide increment decrement and
  or xor not shiftleft shiftright : Byte)
deriving DecidableEq, Repr

/-- The byte that selects a mnemonic. -/
def OpcodeMap.byteOf (m : OpcodeMap) : Mnemonic → Byte
  | .halt => m.halt
  | .compare => m.compare
  | .jump => m.jump
  | .jumpeq => m.jumpeq
  | .jumplt => m.jumplt
  | .jumpgt => m.jumpgt
  | .jumplte => m.jumplte
  | .jumpgte => m.jumpgte
  | .movlr => m.movlr
  | .movrr => m.movrr
  | .movlm => m.movlm
  | .movrm => m.movrm
  | .movemr => m.movemr
  | .movlir => m.movlir
  | .moveirr => m.moveirr
  | .moveirm => m.moveirm
  | .moveimr => m.moveimr
  | .add => m.add
  | .subtract => m.subtract
  | .multiply => m.multiply
  | .divide => m.divide
  | .increment => m.increment
  | .decrement => m.decrement
  | .and => m.and
  | .or => m.or
  | .xor => m.xor
  | .not => m.not
  | .shiftleft => m.shiftleft
  | .shiftright => m.shiftright

/-- `SELECTOR_MAP` (R6): the byte that selects each of the ten slots. -/
structure SelectorMap where
  (r0 r1 r2 r3 r4 r5 r6 r7 pc flags : Byte)
deriving DecidableEq, Repr

/-- The byte that selects a slot. -/
def SelectorMap.byteOf (m : SelectorMap) : Slot → Byte
  | .r0 => m.r0
  | .r1 => m.r1
  | .r2 => m.r2
  | .r3 => m.r3
  | .r4 => m.r4
  | .r5 => m.r5
  | .r6 => m.r6
  | .r7 => m.r7
  | .pc => m.pc
  | .flags => m.flags

/-- The two encoding maps of one instance. -/
structure Maps where
  opcodes   : OpcodeMap
  selectors : SelectorMap
deriving DecidableEq, Repr

/-- What `new` is called with (R6, R210). `memorySize` is `MEMORY_SIZE`: any natural number. -/
structure Config where
  memorySize : Nat
  maps       : Maps
deriving DecidableEq, Repr

end Sys2Proof
end

