-- ==== Sys2Proof/Syntax.lean ====
section
/-! DEFINITION. The instructions (spec 30_encoding.md R84): one constructor per row of spec/opcode_table.json, its
operands in encoding order and named as 00_scope.md R12 names them. A REGISTER operand is already a slot (R23: a
stable handle for the rest of the instruction). -/

namespace Sys2Proof

inductive Instr where
  | halt                                      -- R120
  | compare (regA regB : Slot)                -- R121
  | jump (addr : Word)                        -- R122
  | jumpeq (addr : Word)                      -- R123
  | jumplt (addr : Word)                      -- R124
  | jumpgt (addr : Word)                      -- R125
  | jumplte (addr : Word)                     -- R126
  | jumpgte (addr : Word)                     -- R127
  | movlr (literal : Word) (regA : Slot)      -- R140
  | movrr (regA regB : Slot)                  -- R141
  | movlm (literal addr : Word)               -- R142
  | movrm (regA : Slot) (addr : Word)         -- R143
  | movemr (addr : Word) (regA : Slot)        -- R144
  | movlir (literal : Word) (regA : Slot)     -- R145
  | moveirr (regA regB : Slot)                -- R146
  | moveirm (regA : Slot) (addr : Word)       -- R147
  | moveimr (addr : Word) (regA : Slot)       -- R148
  | add (regA regB : Slot)                    -- R160
  | subtract (regA regB : Slot)               -- R161
  | multiply (regA regB : Slot)               -- R162
  | divide (regA regB : Slot)                 -- R163
  | increment (regA : Slot)                   -- R164
  | decrement (regA : Slot)                   -- R165
  | and (regA regB : Slot)                    -- R166
  | or (regA regB : Slot)                     -- R167
  | xor (regA regB : Slot)                    -- R168
  | not (regA : Slot)                         -- R169
  | shiftleft (regA : Slot) (literal : Word)  -- R170
  | shiftright (regA : Slot) (literal : Word) -- R171
deriving DecidableEq, Repr

/-- The mnemonic of an instruction (the `op` of R90's record). -/
def Instr.mnemonic : Instr → Mnemonic
  | .halt => .halt
  | .compare _ _ => .compare
  | .jump _ => .jump
  | .jumpeq _ => .jumpeq
  | .jumplt _ => .jumplt
  | .jumpgt _ => .jumpgt
  | .jumplte _ => .jumplte
  | .jumpgte _ => .jumpgte
  | .movlr _ _ => .movlr
  | .movrr _ _ => .movrr
  | .movlm _ _ => .movlm
  | .movrm _ _ => .movrm
  | .movemr _ _ => .movemr
  | .movlir _ _ => .movlir
  | .moveirr _ _ => .moveirr
  | .moveirm _ _ => .moveirm
  | .moveimr _ _ => .moveimr
  | .add _ _ => .add
  | .subtract _ _ => .subtract
  | .multiply _ _ => .multiply
  | .divide _ _ => .divide
  | .increment _ => .increment
  | .decrement _ => .decrement
  | .and _ _ => .and
  | .or _ _ => .or
  | .xor _ _ => .xor
  | .not _ => .not
  | .shiftleft _ _ => .shiftleft
  | .shiftright _ _ => .shiftright

/-- The resolved REGISTER operands in encoding order (the `slots` of R90's record). -/
def Instr.slots : Instr → List Slot
  | .halt => []
  | .compare regA regB => [regA, regB]
  | .jump _ => []
  | .jumpeq _ => []
  | .jumplt _ => []
  | .jumpgt _ => []
  | .jumplte _ => []
  | .jumpgte _ => []
  | .movlr _ regA => [regA]
  | .movrr regA regB => [regA, regB]
  | .movlm _ _ => []
  | .movrm regA _ => [regA]
  | .movemr _ regA => [regA]
  | .movlir _ regA => [regA]
  | .moveirr regA regB => [regA, regB]
  | .moveirm regA _ => [regA]
  | .moveimr _ regA => [regA]
  | .add regA regB => [regA, regB]
  | .subtract regA regB => [regA, regB]
  | .multiply regA regB => [regA, regB]
  | .divide regA regB => [regA, regB]
  | .increment regA => [regA]
  | .decrement regA => [regA]
  | .and regA regB => [regA, regB]
  | .or regA regB => [regA, regB]
  | .xor regA regB => [regA, regB]
  | .not regA => [regA]
  | .shiftleft regA _ => [regA]
  | .shiftright regA _ => [regA]

/-- The LITERAL and ADDRESS values in encoding order (the `values` of R90's record). -/
def Instr.values : Instr → List Word
  | .halt => []
  | .compare _ _ => []
  | .jump addr => [addr]
  | .jumpeq addr => [addr]
  | .jumplt addr => [addr]
  | .jumpgt addr => [addr]
  | .jumplte addr => [addr]
  | .jumpgte addr => [addr]
  | .movlr literal _ => [literal]
  | .movrr _ _ => []
  | .movlm literal addr => [literal, addr]
  | .movrm _ addr => [addr]
  | .movemr addr _ => [addr]
  | .movlir literal _ => [literal]
  | .moveirr _ _ => []
  | .moveirm _ addr => [addr]
  | .moveimr addr _ => [addr]
  | .add _ _ => []
  | .subtract _ _ => []
  | .multiply _ _ => []
  | .divide _ _ => []
  | .increment _ => []
  | .decrement _ => []
  | .and _ _ => []
  | .or _ _ => []
  | .xor _ _ => []
  | .not _ => []
  | .shiftleft _ literal => [literal]
  | .shiftright _ literal => [literal]

end Sys2Proof
end

