-- ==== Sys2Proof/WellFormed.lean ====
section
/-! DEFINITION. Well-formedness. Slots and 16-bit values are well-formed by their types (R83: every 16-bit value is
legal; R23: only ten slots exist). What is left to check is R7: the maps are injective, so that an instruction's opcode
byte and selector bytes name it and nothing else. -/

namespace Sys2Proof

/-- R7: no byte selects two mnemonics. -/
def OpcodeMap.injective (m : OpcodeMap) : Bool :=
  decide (Mnemonic.all.map m.byteOf).Nodup

/-- R7, "in the same way": no byte selects two slots. -/
def SelectorMap.injective (m : SelectorMap) : Bool :=
  decide (Slot.all.map m.byteOf).Nodup

/-- Both maps are what R7 requires of them. -/
def Maps.wf (m : Maps) : Bool :=
  m.opcodes.injective && m.selectors.injective

/-- The byte of `op` selects no other mnemonic. -/
def OpcodeMap.selectsOnly (m : OpcodeMap) (op : Mnemonic) : Bool :=
  Mnemonic.all.all fun op' => op' == op || m.byteOf op' != m.byteOf op

/-- The byte of `sl` selects no other slot. -/
def SelectorMap.selectsOnly (m : SelectorMap) (sl : Slot) : Bool :=
  Slot.all.all fun sl' => sl' == sl || m.byteOf sl' != m.byteOf sl

/-- An instruction is well-formed under the maps when every byte that names one of its parts names only that part. -/
def Instr.wf (m : Maps) (i : Instr) : Bool :=
  m.opcodes.selectsOnly i.mnemonic && i.slots.all m.selectors.selectsOnly

end Sys2Proof
end

