-- ==== Sys2Proof/Decode.lean ====
section
/-! DEFINITION. Decoding and encoding (spec 30_encoding.md R80 to R98; 20_memory.md R55 for byte order). The decoder is
total on any byte list and rejects by name; the encoder is written from the same tables. Both take the maps as a
parameter (R6); the spec's default maps stand here (R22, R84). -/

namespace Sys2Proof

/-- R84's default bytes, "assigned in the order the §4.3 table lists the mnemonics, from 0x00 up" (decision D2, log 2). -/
def OpcodeMap.default : OpcodeMap where
  halt := 0x00#8
  compare := 0x01#8
  jump := 0x02#8
  jumpeq := 0x03#8
  jumplt := 0x04#8
  jumpgt := 0x05#8
  jumplte := 0x06#8
  jumpgte := 0x07#8
  movlr := 0x08#8
  movrr := 0x09#8
  movlm := 0x0A#8
  movrm := 0x0B#8
  movemr := 0x0C#8
  movlir := 0x0D#8
  moveirr := 0x0E#8
  moveirm := 0x0F#8
  moveimr := 0x10#8
  add := 0x11#8
  subtract := 0x12#8
  multiply := 0x13#8
  divide := 0x14#8
  increment := 0x15#8
  decrement := 0x16#8
  and := 0x17#8
  or := 0x18#8
  xor := 0x19#8
  not := 0x1A#8
  shiftleft := 0x1B#8
  shiftright := 0x1C#8

/-- R22's default bytes (decision D3, log 2). -/
def SelectorMap.default : SelectorMap where
  r0 := 0x00#8
  r1 := 0x01#8
  r2 := 0x02#8
  r3 := 0x03#8
  r4 := 0x04#8
  r5 := 0x05#8
  r6 := 0x06#8
  r7 := 0x07#8
  pc := 0x08#8
  flags := 0x09#8

def Maps.default : Maps := { opcodes := OpcodeMap.default, selectors := SelectorMap.default }

/-- The parameters of `State.reset`: the default maps and 65536 bytes, the capacity of the spec's own test vectors
(R6; the spec leaves `MEMORY_SIZE` open, log 1). -/
def Config.default : Config := { memorySize := 65536, maps := Maps.default }

/-! ### Byte order (R55, R83) -/

/-- `v[7:0]`. -/
def lowByte (v : Word) : Byte := v.extractLsb' 0 8

/-- `v[15:8]`. -/
def highByte (v : Word) : Byte := v.extractLsb' 8 8

/-- R10's `{x, y}`: the 16-bit value `x + 256*y`. -/
def wordOf (x y : Byte) : Word := y ++ x

/-! ### The static operand table and widths (R81, R82, R84, R85) -/

/-- R81: "widths: REGISTER=1, LITERAL=2, ADDRESS=2". -/
def OperandKind.width : OperandKind → Nat
  | .register => 1
  | .literal => 2
  | .address => 2

/-- `OPERANDS(op)`: the operand column of R84's table. -/
def Mnemonic.operands : Mnemonic → List OperandKind
  | .halt => []
  | .compare => [.register, .register]
  | .jump => [.address]
  | .jumpeq => [.address]
  | .jumplt => [.address]
  | .jumpgt => [.address]
  | .jumplte => [.address]
  | .jumpgte => [.address]
  | .movlr => [.literal, .register]
  | .movrr => [.register, .register]
  | .movlm => [.literal, .address]
  | .movrm => [.register, .address]
  | .movemr => [.address, .register]
  | .movlir => [.literal, .register]
  | .moveirr => [.register, .register]
  | .moveirm => [.register, .address]
  | .moveimr => [.address, .register]
  | .add => [.register, .register]
  | .subtract => [.register, .register]
  | .multiply => [.register, .register]
  | .divide => [.register, .register]
  | .increment => [.register]
  | .decrement => [.register]
  | .and => [.register, .register]
  | .or => [.register, .register]
  | .xor => [.register, .register]
  | .not => [.register]
  | .shiftleft => [.register, .literal]
  | .shiftright => [.register, .literal]

/-- `width(op)` (R85): one opcode byte and the operands' widths. -/
def Mnemonic.width (op : Mnemonic) : Nat :=
  1 + (op.operands.map OperandKind.width).sum

/-- The width of the longest instruction (R80: "1 to 5 bytes"). -/
def maxWidth : Nat := 5

/-! ### Decoding (R86 to R90) -/

/-- Why bytes are no instruction. -/
inductive DecodeError where
  /-- The bytes end inside the instruction (R86, R88): in memory, a read past `MEMORY_SIZE`. -/
  | outOfBounds
  /-- R87: the opcode byte has no entry in `OPCODE_MAP`. -/
  | unimplementedInstruction (op : Byte)
  /-- R23, R88: the selector byte names no slot. -/
  | invalidRegister (selector : Byte)
deriving DecidableEq, Repr

/-- R87's lookup: the mnemonic the byte selects (for maps that are not injective, the first in table order: log 3). -/
def Maps.lookup (m : Maps) (b : Byte) : Option Mnemonic :=
  Mnemonic.all.find? fun op => m.opcodes.byteOf op == b

/-- The selector mux (R23). -/
def Maps.resolve (m : Maps) (b : Byte) : Option Slot :=
  Slot.all.find? fun sl => m.selectors.byteOf sl == b

abbrev Decoded := Except DecodeError (Instr × List Byte)

/-- R88, a REGISTER operand: one byte, resolved at once. -/
def withSlot (m : Maps) (bs : List Byte) (k : Slot → List Byte → Decoded) : Decoded :=
  match bs with
  | [] => .error .outOfBounds
  | b :: rest =>
    match m.resolve b with
    | none => .error (.invalidRegister b)
    | some sl => k sl rest

/-- R88, a LITERAL or ADDRESS operand: two bytes, low byte first. -/
def withWord (bs : List Byte) (k : Word → List Byte → Decoded) : Decoded :=
  match bs with
  | lo :: hi :: rest => k (wordOf lo hi) rest
  | _ => .error .outOfBounds

/-! The nine formats of R82, each reading its operands in encoding order. -/

def formatN (i : Instr) (bs : List Byte) : Decoded := .ok (i, bs)

def formatR (m : Maps) (mk : Slot → Instr) (bs : List Byte) : Decoded :=
  withSlot m bs fun a rest => .ok (mk a, rest)

def formatRR (m : Maps) (mk : Slot → Slot → Instr) (bs : List Byte) : Decoded :=
  withSlot m bs fun a rest => withSlot m rest fun b rest => .ok (mk a b, rest)

def formatA (mk : Word → Instr) (bs : List Byte) : Decoded :=
  withWord bs fun v rest => .ok (mk v, rest)

/-- LR and AR: a 16-bit value, then a register. -/
def formatLR (m : Maps) (mk : Word → Slot → Instr) (bs : List Byte) : Decoded :=
  withWord bs fun v rest => withSlot m rest fun a rest => .ok (mk v a, rest)

/-- RA and RL: a register, then a 16-bit value. -/
def formatRA (m : Maps) (mk : Slot → Word → Instr) (bs : List Byte) : Decoded :=
  withSlot m bs fun a rest => withWord rest fun v rest => .ok (mk a v, rest)

def formatLA (mk : Word → Word → Instr) (bs : List Byte) : Decoded :=
  withWord bs fun v rest => withWord rest fun w rest => .ok (mk v w, rest)

/-- R88: the operands of a mnemonic, from the bytes after its opcode byte. -/
def decodeOperands (m : Maps) (op : Mnemonic) (bs : List Byte) : Decoded :=
  match op with
  | .halt => formatN .halt bs
  | .compare => formatRR m .compare bs
  | .jump => formatA .jump bs
  | .jumpeq => formatA .jumpeq bs
  | .jumplt => formatA .jumplt bs
  | .jumpgt => formatA .jumpgt bs
  | .jumplte => formatA .jumplte bs
  | .jumpgte => formatA .jumpgte bs
  | .movlr => formatLR m .movlr bs
  | .movrr => formatRR m .movrr bs
  | .movlm => formatLA .movlm bs
  | .movrm => formatRA m .movrm bs
  | .movemr => formatLR m .movemr bs
  | .movlir => formatLR m .movlir bs
  | .moveirr => formatRR m .moveirr bs
  | .moveirm => formatRA m .moveirm bs
  | .moveimr => formatLR m .moveimr bs
  | .add => formatRR m .add bs
  | .subtract => formatRR m .subtract bs
  | .multiply => formatRR m .multiply bs
  | .divide => formatRR m .divide bs
  | .increment => formatR m .increment bs
  | .decrement => formatR m .decrement bs
  | .and => formatRR m .and bs
  | .or => formatRR m .or bs
  | .xor => formatRR m .xor bs
  | .not => formatR m .not bs
  | .shiftleft => formatRA m .shiftleft bs
  | .shiftright => formatRA m .shiftright bs

/-- R86 to R89: the instruction at the head of a byte list and the bytes after it, or the one error. -/
def decode (m : Maps) (bs : List Byte) : Decoded :=
  match bs with
  | [] => .error .outOfBounds
  | b :: rest =>
    match m.lookup b with
    | none => .error (.unimplementedInstruction b)
    | some op => decodeOperands m op rest

/-! ### Encoding (R82, R84) -/

/-- The bytes of an instruction, lowest address first. -/
def encode (m : Maps) : Instr → List Byte
  | .halt => [m.opcodes.byteOf .halt]
  | .compare regA regB => [m.opcodes.byteOf .compare, m.selectors.byteOf regA, m.selectors.byteOf regB]
  | .jump addr => [m.opcodes.byteOf .jump, lowByte addr, highByte addr]
  | .jumpeq addr => [m.opcodes.byteOf .jumpeq, lowByte addr, highByte addr]
  | .jumplt addr => [m.opcodes.byteOf .jumplt, lowByte addr, highByte addr]
  | .jumpgt addr => [m.opcodes.byteOf .jumpgt, lowByte addr, highByte addr]
  | .jumplte addr => [m.opcodes.byteOf .jumplte, lowByte addr, highByte addr]
  | .jumpgte addr => [m.opcodes.byteOf .jumpgte, lowByte addr, highByte addr]
  | .movlr literal regA => [m.opcodes.byteOf .movlr, lowByte literal, highByte literal, m.selectors.byteOf regA]
  | .movrr regA regB => [m.opcodes.byteOf .movrr, m.selectors.byteOf regA, m.selectors.byteOf regB]
  | .movlm literal addr => [m.opcodes.byteOf .movlm, lowByte literal, highByte literal, lowByte addr, highByte addr]
  | .movrm regA addr => [m.opcodes.byteOf .movrm, m.selectors.byteOf regA, lowByte addr, highByte addr]
  | .movemr addr regA => [m.opcodes.byteOf .movemr, lowByte addr, highByte addr, m.selectors.byteOf regA]
  | .movlir literal regA => [m.opcodes.byteOf .movlir, lowByte literal, highByte literal, m.selectors.byteOf regA]
  | .moveirr regA regB => [m.opcodes.byteOf .moveirr, m.selectors.byteOf regA, m.selectors.byteOf regB]
  | .moveirm regA addr => [m.opcodes.byteOf .moveirm, m.selectors.byteOf regA, lowByte addr, highByte addr]
  | .moveimr addr regA => [m.opcodes.byteOf .moveimr, lowByte addr, highByte addr, m.selectors.byteOf regA]
  | .add regA regB => [m.opcodes.byteOf .add, m.selectors.byteOf regA, m.selectors.byteOf regB]
  | .subtract regA regB => [m.opcodes.byteOf .subtract, m.selectors.byteOf regA, m.selectors.byteOf regB]
  | .multiply regA regB => [m.opcodes.byteOf .multiply, m.selectors.byteOf regA, m.selectors.byteOf regB]
  | .divide regA regB => [m.opcodes.byteOf .divide, m.selectors.byteOf regA, m.selectors.byteOf regB]
  | .increment regA => [m.opcodes.byteOf .increment, m.selectors.byteOf regA]
  | .decrement regA => [m.opcodes.byteOf .decrement, m.selectors.byteOf regA]
  | .and regA regB => [m.opcodes.byteOf .and, m.selectors.byteOf regA, m.selectors.byteOf regB]
  | .or regA regB => [m.opcodes.byteOf .or, m.selectors.byteOf regA, m.selectors.byteOf regB]
  | .xor regA regB => [m.opcodes.byteOf .xor, m.selectors.byteOf regA, m.selectors.byteOf regB]
  | .not regA => [m.opcodes.byteOf .not, m.selectors.byteOf regA]
  | .shiftleft regA literal => [m.opcodes.byteOf .shiftleft, m.selectors.byteOf regA, lowByte literal, highByte literal]
  | .shiftright regA literal => [m.opcodes.byteOf .shiftright, m.selectors.byteOf regA, lowByte literal, highByte literal]

/-! ### The opcode table's numbering of an instruction's bits -/

/-- The `maxWidth` bytes of a table word: bit 0 is the least significant bit of the first byte, and every bit from
`nbits` up is 0. -/
def tableBytes (nbits w : Nat) : List Byte :=
  (List.range maxWidth).map fun k => BitVec.ofNat 8 (w % 2 ^ nbits / 256 ^ k)

/-- The instruction the decoder reads, under the default maps, from a word of spec/opcode_table.json. -/
def decodeTableWord (nbits w : Nat) : Option Instr :=
  match decode Maps.default (tableBytes nbits w) with
  | .ok (i, _) => some i
  | .error _ => none

end Sys2Proof
end

