-- ==== Sys2Proof/Machine/State.lean ====
section
/-! DEFINITION. The architectural state (spec 10_state.md R20), the reasons a step can stop (60_exceptions.md R180) and
the state after `new` (R33). Plain data throughout. -/

namespace Sys2Proof.Machine

/-- The execution errors (R180, R181: the source's `VmError`). Each is the spec's own: the machine reports it and
enters Faulted, so a step that answers it is exact (safe). The state a fault leaves (R183) is `State.markFaulted`. -/
inductive Fault where
  /-- An access with `a + width > MEMORY_SIZE` (R52): opcode and operand fetch, and the seven moves that access memory. -/
  | outOfBounds
  /-- A REGISTER operand byte that names no slot (R23), raised by decode; it carries the byte (decision D21). -/
  | invalidRegister (selector : Byte)
  /-- An opcode byte with no table entry (R87), raised by decode, "naming the raw byte". -/
  | unimplementedInstruction (opcode : Byte)
  /-- DIVIDE with divisor 0 (R163); no other instruction raises it. -/
  | arithmeticError
  /-- A step requested while the status is Faulted (R186), raised before fetch. -/
  | alreadyFaulted
deriving DecidableEq, Repr

/-- Instructions without a meaning. No arm of `exec` uses it: every instruction has its meaning (safe). -/
inductive Refusal where
  /-- Raised by an arm of `exec` whose instruction has no meaning yet; none is left. -/
  | notModelled (mnemonic : String)
deriving DecidableEq, Repr

/-- The load errors (R180, R181: the source's `LoadError`), answered by `load` alone; they never change the status. -/
inductive LoadError where
  | outOfMemory
  | badOffset
deriving DecidableEq, Repr

/-- The run status (R31), a function of the state. -/
inductive Status where
  | ready | running | halted | faulted
deriving DecidableEq, Repr

/-- The eight general registers (R21): distinct storage, none hardwired, none banked. -/
structure GeneralRegs where
  (r0 r1 r2 r3 r4 r5 r6 r7 : Word)
deriving DecidableEq, Repr

/-- The byte buffer (R50): its capacity `MEMORY_SIZE`, fixed at construction, and the bytes that are not 0, as
(address, byte) pairs at rising addresses. An address not listed reads as 0 (R62). -/
structure Memory where
  size  : Nat
  cells : List Host.Cell
deriving DecidableEq, Repr

/-- R20's record, with the two encoding maps the instance was made with (R6; fixed like the capacity, log 2). -/
structure State where
  regs    : GeneralRegs
  pc      : Word
  flags   : Word
  mem     : Memory
  faulted : Bool
  started : Bool
  maps    : Maps
deriving DecidableEq, Repr

/-- `new(MEMORY_SIZE)` (R33, R210): registers, PC and FLAGS 0, memory all 0, status Ready. -/
def State.new (c : Config) : State where
  regs := { r0 := 0, r1 := 0, r2 := 0, r3 := 0, r4 := 0, r5 := 0, r6 := 0, r7 := 0 }
  pc := 0
  flags := 0
  mem := { size := c.memorySize, cells := [] }
  faulted := false
  started := false
  maps := c.maps

/-- The machine right after reset, which is construction (R210), at the default parameters. -/
def State.reset : State := State.new Config.default

end Sys2Proof.Machine
end

