-- ==== Sys2Proof/Machine/Ops.lean ====
section
/-! DEFINITION. The named operations over memory and registers: the four access primitives (spec 20_memory.md R52,
R53), the register slots (10_state.md R23, R24), the PC update (30_encoding.md R93), fetch (R86 to R90), raising an
error (60_exceptions.md R183) and the way out of it (`init`, R34). -/

namespace Sys2Proof.Machine

/-! ### Memory as plain storage (R50, R59, R62) -/

/-- What an address nothing has written reads as: memory is "zero-initialized at creation" (R33, R50, R62). -/
def Memory.unlisted : Byte := 0

/-- `Mem[a]`, without the bounds check. -/
def Memory.byteAt (m : Memory) (a : Nat) : Byte :=
  match m.cells.find? fun c => c.1 == a with
  | some c => c.2
  | none => Memory.unlisted

/-- A cell put before the first cell of a higher address. -/
def insertCell (c : Host.Cell) : List Host.Cell → List Host.Cell
  | [] => [c]
  | d :: ds => if c.1 < d.1 then c :: d :: ds else d :: insertCell c ds

/-- `Mem[a] <- v`, without the bounds check. Writing what an unlisted address reads as removes the cell, so the
canonical form is kept. -/
def Memory.setByte (m : Memory) (a : Nat) (v : Byte) : Memory :=
  let others := m.cells.filter fun c => c.1 != a
  { m with cells := if v == Memory.unlisted then others else insertCell (a, v) others }

/-- The canonical form: addresses strictly rising and inside the buffer, no cell that an unlisted address would read as. -/
def Memory.wf (m : Memory) : Bool :=
  decide (m.cells.Pairwise fun c d => c.1 < d.1) && m.cells.all fun c => decide (c.1 < m.size) && c.2 != Memory.unlisted

/-- Consecutive bytes written from `a` up (R212's loop). -/
def Memory.storeBytes (m : Memory) (a : Nat) : List Byte → Memory
  | [] => m
  | b :: bs => (m.setByte a b).storeBytes (a + 1) bs

/-- The bytes at `a`, `a+1`, … that lie in the buffer, at most `n` of them. -/
def Memory.bytesFrom (m : Memory) (a : Nat) : Nat → List Byte
  | 0 => []
  | n + 1 => if a < m.size then m.byteAt a :: m.bytesFrom (a + 1) n else []

/-! ### The four bounds-checked primitives (R52, R53). Addresses are natural numbers and never wrap. -/

def Memory.read8 (m : Memory) (a : Nat) : Except Fault Byte :=
  if a + 1 ≤ m.size then .ok (m.byteAt a) else .error .outOfBounds

/-- Little-endian; both bytes are checked before either is read. -/
def Memory.read16 (m : Memory) (a : Nat) : Except Fault Word :=
  if a + 2 ≤ m.size then .ok (wordOf (m.byteAt a) (m.byteAt (a + 1))) else .error .outOfBounds

/-- Part of the memory contract; no instruction uses it (R54). -/
def Memory.write8 (m : Memory) (a : Nat) (v : Word) : Except Fault Memory :=
  if a + 1 ≤ m.size then .ok (m.setByte a (lowByte v)) else .error .outOfBounds

/-- Little-endian; the whole range is checked before either byte is written. -/
def Memory.write16 (m : Memory) (a : Nat) (v : Word) : Except Fault Memory :=
  if a + 2 ≤ m.size then .ok ((m.setByte a (lowByte v)).setByte (a + 1) (highByte v)) else .error .outOfBounds

/-! ### Register slots (R11, R23, R24) -/

/-- `x[sl]`. -/
def State.read (s : State) : Slot → Word
  | .r0 => s.regs.r0
  | .r1 => s.regs.r1
  | .r2 => s.regs.r2
  | .r3 => s.regs.r3
  | .r4 => s.regs.r4
  | .r5 => s.regs.r5
  | .r6 => s.regs.r6
  | .r7 => s.regs.r7
  | .pc => s.pc
  | .flags => s.flags

/-- `x[sl] <- v`: PC and FLAGS are ordinary operands, all 16 bits of them (R25, R30). -/
def State.write (s : State) (sl : Slot) (v : Word) : State :=
  match sl with
  | .r0 => { s with regs := { s.regs with r0 := v } }
  | .r1 => { s with regs := { s.regs with r1 := v } }
  | .r2 => { s with regs := { s.regs with r2 := v } }
  | .r3 => { s with regs := { s.regs with r3 := v } }
  | .r4 => { s with regs := { s.regs with r4 := v } }
  | .r5 => { s with regs := { s.regs with r5 := v } }
  | .r6 => { s with regs := { s.regs with r6 := v } }
  | .r7 => { s with regs := { s.regs with r7 := v } }
  | .pc => { s with pc := v }
  | .flags => { s with flags := v }

/-! ### The PC update (R93 to R95) -/

/-- R93: `PC <- (PC_after_execute + width) mod 2^16`, the width taken from the operand table (R85, R222). -/
def State.advance (s : State) (op : Mnemonic) : State :=
  { s with pc := s.pc + BitVec.ofNat 16 op.width }

/-- R95, a taken jump: `PC <- addr`, no width added. -/
def State.jumpTo (s : State) (addr : Word) : State := { s with pc := addr }

/-! ### Raising an error, and the way out (R183, R184, R34) -/

/-- `raise E`: the step ends with the error and nothing else (R11, R183). There is no trap entry (R184). -/
def raise (e : Fault) : Host.Outcome State Fault Refusal := .fault e

/-- The state a raised error leaves: the state before the step with `faulted` set (R183). -/
def State.markFaulted (s : State) : State := { s with faulted := true }

/-- `init()` (R34, R211): registers, PC, FLAGS and status as after `new`, memory unchanged. -/
def State.init (s : State) : State :=
  { State.new { memorySize := s.mem.size, maps := s.maps } with mem := s.mem }

/-! ### The shapes of execute: an access, a write of a slot, the PC update -/

/-- A non-branching instruction whose destination is the slot `dst` (R93, R94: the width is added to what the PC slot
holds after the write). -/
def State.putAndAdvance (s : State) (op : Mnemonic) (dst : Slot) (v : Word) : Host.Outcome State Fault Refusal :=
  .next ((s.write dst v).advance op)

/-- A load of the word at `a` into `dst`. -/
def State.loadAndAdvance (s : State) (op : Mnemonic) (dst : Slot) (a : Nat) : Host.Outcome State Fault Refusal :=
  match s.mem.read16 a with
  | .error e => raise e
  | .ok v => s.putAndAdvance op dst v

/-- A store of `v` at `a`. -/
def State.storeAndAdvance (s : State) (op : Mnemonic) (a : Nat) (v : Word) : Host.Outcome State Fault Refusal :=
  match s.mem.write16 a v with
  | .error e => raise e
  | .ok m => .next (State.advance { s with mem := m } op)

/-! ### Fetch and decode (R86 to R90) -/

/-- A decode error as the execution error it raises (R180). -/
def Fault.ofDecode : DecodeError → Fault
  | .outOfBounds => .outOfBounds
  | .unimplementedInstruction b => .unimplementedInstruction b
  | .invalidRegister b => .invalidRegister b

/-- The instruction at PC, read from the current contents of memory (R64). It writes no state (R89). -/
def State.fetch (s : State) : Except Fault Instr :=
  match decode s.maps (s.mem.bytesFrom s.pc.toNat maxWidth) with
  | .ok (i, _) => .ok i
  | .error e => .error (Fault.ofDecode e)

end Sys2Proof.Machine
end

