-- ==== Sys2Proof/Machine/Alu.lean ====
section
/-! DEFINITION. Arithmetic, logic and shift (spec 42_alu.md). Every value is an unsigned 16-bit number and every
result is reduced mod 2^16 (R158), which is what 16-bit vector arithmetic does. No flag changes on the side (R29). -/

namespace Sys2Proof.Machine

/-- R159: `x[regB] <- x[regA] OP x[regB]`, both read first. -/
def State.twoRegister (s : State) (op : Mnemonic) (f : Word → Word → Word) (regA regB : Slot) :
    Host.Outcome State Fault Refusal :=
  s.putAndAdvance op regB (f (s.read regA) (s.read regB))

/-- `x[regA] <- OP x[regA]`. -/
def State.oneRegister (s : State) (op : Mnemonic) (f : Word → Word) (regA : Slot) :
    Host.Outcome State Fault Refusal :=
  s.putAndAdvance op regA (f (s.read regA))

/-- R170: logical shift left by a full 16-bit count; a count of 16 or more gives 0 (decision D6). -/
def shiftLeft (v count : Word) : Word :=
  if count.toNat ≥ 16 then 0 else v <<< count.toNat

/-- R171: logical shift right, zeros shifted in at bit 15 (decisions D5, D6). -/
def shiftRight (v count : Word) : Word :=
  if count.toNat ≥ 16 then 0 else v >>> count.toNat

/-- R160. -/
def execAdd (regA regB : Slot) (s : State) : Host.Outcome State Fault Refusal :=
  s.twoRegister .add (fun a b => a + b) regA regB

/-- R161: the first operand is the minuend. -/
def execSubtract (regA regB : Slot) (s : State) : Host.Outcome State Fault Refusal :=
  s.twoRegister .subtract (fun a b => a - b) regA regB

/-- R162: the low 16 bits of the product. -/
def execMultiply (regA regB : Slot) (s : State) : Host.Outcome State Fault Refusal :=
  s.twoRegister .multiply (fun a b => a * b) regA regB

/-- R163: unsigned truncating division; a divisor of 0 raises `ArithmeticError`. -/
def execDivide (regA regB : Slot) (s : State) : Host.Outcome State Fault Refusal :=
  if s.read regB = 0 then raise .arithmeticError
  else s.twoRegister .divide (fun a b => a / b) regA regB

/-- R164. -/
def execIncrement (regA : Slot) (s : State) : Host.Outcome State Fault Refusal :=
  s.oneRegister .increment (fun a => a + 1) regA

/-- R165. -/
def execDecrement (regA : Slot) (s : State) : Host.Outcome State Fault Refusal :=
  s.oneRegister .decrement (fun a => a - 1) regA

/-- R166. -/
def execAnd (regA regB : Slot) (s : State) : Host.Outcome State Fault Refusal :=
  s.twoRegister .and (fun a b => a &&& b) regA regB

/-- R167. -/
def execOr (regA regB : Slot) (s : State) : Host.Outcome State Fault Refusal :=
  s.twoRegister .or (fun a b => a ||| b) regA regB

/-- R168. -/
def execXor (regA regB : Slot) (s : State) : Host.Outcome State Fault Refusal :=
  s.twoRegister .xor (fun a b => a ^^^ b) regA regB

/-- R169. -/
def execNot (regA : Slot) (s : State) : Host.Outcome State Fault Refusal :=
  s.oneRegister .not (fun a => ~~~a) regA

/-- R170. -/
def execShiftleft (regA : Slot) (literal : Word) (s : State) : Host.Outcome State Fault Refusal :=
  s.oneRegister .shiftleft (fun a => shiftLeft a literal) regA

/-- R171. -/
def execShiftright (regA : Slot) (literal : Word) (s : State) : Host.Outcome State Fault Refusal :=
  s.oneRegister .shiftright (fun a => shiftRight a literal) regA

end Sys2Proof.Machine
end

