-- ==== Sys2Proof/Machine/Flags.lean ====
section
/-! DEFINITION. FLAGS (spec 10_state.md R28 to R31): the masks as the spec gives them, the condition-set logic of
COMPARE (40_control.md R121), the test of a conditional jump (R123 to R127) and the run status. -/

namespace Sys2Proof.Machine

def maskEq  : Word := 0x0001
def maskLt  : Word := 0x0002
def maskLte : Word := 0x0004
def maskGt  : Word := 0x0008
def maskGte : Word := 0x0010
def maskHlt : Word := 0x0020

/-- `(FLAGS & mask) != 0`. -/
def anySet (f mask : Word) : Bool := (f &&& mask) != 0

/-- One line of R121: `if c then f <- f | mask`. -/
def orIf (c : Bool) (mask f : Word) : Word := if c then f ||| mask else f

/-- R121: FLAGS from an unsigned comparison, starting from 0, so bits 5..15 become 0. -/
def compareFlags (a b : Word) : Word :=
  orIf (decide (a.toNat ≥ b.toNat)) maskGte <|
  orIf (decide (a.toNat > b.toNat)) maskGt <|
  orIf (decide (a.toNat ≤ b.toNat)) maskLte <|
  orIf (decide (a.toNat < b.toNat)) maskLt <|
  orIf (decide (a.toNat = b.toNat)) maskEq 0

/-- `FLAGS[5] = 1`. -/
def State.hlt (s : State) : Bool := anySet s.flags maskHlt

/-- R31. -/
def State.status (s : State) : Status :=
  if s.faulted then .faulted
  else if s.hlt then .halted
  else if !s.started then .ready
  else .running

/-- The scheme of the five conditional jumps (40_control.md section 4; R93, R95): test one bit, jump or fall through. -/
def State.jumpIf (s : State) (op : Mnemonic) (mask addr : Word) : State :=
  if anySet s.flags mask then s.jumpTo addr else s.advance op

end Sys2Proof.Machine
end

