-- ==== Sys2Proof/Machine/Control.lean ====
section
/-! DEFINITION. Halt, compare and control transfer (spec 40_control.md). -/

namespace Sys2Proof.Machine

/-- R120: set HLT, every other bit and PC unchanged. -/
def execHalt (s : State) : Host.Outcome State Fault Refusal :=
  .next { s with flags := s.flags ||| maskHlt }

/-- R121: all 16 bits of FLAGS from the unsigned comparison; both operands are read first. -/
def execCompare (regA regB : Slot) (s : State) : Host.Outcome State Fault Refusal :=
  s.putAndAdvance .compare .flags (compareFlags (s.read regA) (s.read regB))

/-- R122. -/
def execJump (addr : Word) (s : State) : Host.Outcome State Fault Refusal :=
  .next (s.jumpTo addr)

/-- R123. -/
def execJumpeq (addr : Word) (s : State) : Host.Outcome State Fault Refusal :=
  .next (s.jumpIf .jumpeq maskEq addr)

/-- R124. -/
def execJumplt (addr : Word) (s : State) : Host.Outcome State Fault Refusal :=
  .next (s.jumpIf .jumplt maskLt addr)

/-- R125. -/
def execJumpgt (addr : Word) (s : State) : Host.Outcome State Fault Refusal :=
  .next (s.jumpIf .jumpgt maskGt addr)

/-- R126. -/
def execJumplte (addr : Word) (s : State) : Host.Outcome State Fault Refusal :=
  .next (s.jumpIf .jumplte maskLte addr)

/-- R127. -/
def execJumpgte (addr : Word) (s : State) : Host.Outcome State Fault Refusal :=
  .next (s.jumpIf .jumpgte maskGte addr)

end Sys2Proof.Machine
end

