-- ==== Sys2Proof/Machine/Operands.lean ====
section
/-! DEFINITION. The addressing modes and their effective addresses (spec 41_data_movement.md, the table before section 1).
None changes a base register. An effective address is a natural number: address arithmetic does not wrap (20_memory.md R51). -/

namespace Sys2Proof.Machine

/-- Absolute memory: the effective address is the ADDRESS operand (R83). -/
def absoluteAddress (addr : Word) : Nat := addr.toNat

/-- Register indirect: the effective address is `x[reg]` (R14), for PC the address of the instruction itself (R26). -/
def State.indirectAddress (s : State) (reg : Slot) : Nat := (s.read reg).toNat

/-- Memory indirect: the effective address is the word at the ADDRESS operand (R148). -/
def State.pointerAddress (s : State) (addr : Word) : Except Fault Nat :=
  match s.mem.read16 (absoluteAddress addr) with
  | .error e => .error e
  | .ok p => .ok p.toNat

end Sys2Proof.Machine
end

