-- ==== Sys2Proof/Machine/DataMovement.lean ====
section
/-! DEFINITION. Data movement (spec 41_data_movement.md). -/

namespace Sys2Proof.Machine

/-- R140: `x[regA] <- literal`. -/
def execMovlr (literal : Word) (regA : Slot) (s : State) : Host.Outcome State Fault Refusal :=
  s.putAndAdvance .movlr regA literal

/-- R141: `x[regB] <- x[regA]`. -/
def execMovrr (regA regB : Slot) (s : State) : Host.Outcome State Fault Refusal :=
  s.putAndAdvance .movrr regB (s.read regA)

/-- R142: `mem16[addr] <- literal`. -/
def execMovlm (literal addr : Word) (s : State) : Host.Outcome State Fault Refusal :=
  s.storeAndAdvance .movlm (absoluteAddress addr) literal

/-- R143: `mem16[addr] <- x[regA]`. -/
def execMovrm (regA : Slot) (addr : Word) (s : State) : Host.Outcome State Fault Refusal :=
  s.storeAndAdvance .movrm (absoluteAddress addr) (s.read regA)

/-- R144: `x[regA] <- mem16[addr]`. -/
def execMovemr (addr : Word) (regA : Slot) (s : State) : Host.Outcome State Fault Refusal :=
  s.loadAndAdvance .movemr regA (absoluteAddress addr)

/-- R145: `mem16[x[regA]] <- literal`; `regA` itself is not written. -/
def execMovlir (literal : Word) (regA : Slot) (s : State) : Host.Outcome State Fault Refusal :=
  s.storeAndAdvance .movlir (s.indirectAddress regA) literal

/-- R146: `x[regB] <- mem16[x[regA]]`. -/
def execMoveirr (regA regB : Slot) (s : State) : Host.Outcome State Fault Refusal :=
  s.loadAndAdvance .moveirr regB (s.indirectAddress regA)

/-- R147: `mem16[addr] <- mem16[x[regA]]`, the word read whole, and its bounds checked, before the write. -/
def execMoveirm (regA : Slot) (addr : Word) (s : State) : Host.Outcome State Fault Refusal :=
  match s.mem.read16 (s.indirectAddress regA) with
  | .error e => raise e
  | .ok v => s.storeAndAdvance .moveirm (absoluteAddress addr) v

/-- R148: `x[regA] <- mem16[mem16[addr]]`, the pointer read first. -/
def execMoveimr (addr : Word) (regA : Slot) (s : State) : Host.Outcome State Fault Refusal :=
  match s.pointerAddress addr with
  | .error e => raise e
  | .ok a => s.loadAndAdvance .moveimr regA a

end Sys2Proof.Machine
end

