-- ==== Sys2Proof/Machine/Dispatch.lean ====
section
/-! DEFINITION. Execute's selection of one rule by mnemonic (spec 30_encoding.md R92): one arm per constructor and no
default arm. -/

namespace Sys2Proof.Machine

def exec (i : Instr) (s : State) : Host.Outcome State Fault Refusal :=
  match i with
  | .halt => Sys2Proof.Machine.execHalt s
  | .compare regA regB => Sys2Proof.Machine.execCompare regA regB s
  | .jump addr => Sys2Proof.Machine.execJump addr s
  | .jumpeq addr => Sys2Proof.Machine.execJumpeq addr s
  | .jumplt addr => Sys2Proof.Machine.execJumplt addr s
  | .jumpgt addr => Sys2Proof.Machine.execJumpgt addr s
  | .jumplte addr => Sys2Proof.Machine.execJumplte addr s
  | .jumpgte addr => Sys2Proof.Machine.execJumpgte addr s
  | .movlr literal regA => Sys2Proof.Machine.execMovlr literal regA s
  | .movrr regA regB => Sys2Proof.Machine.execMovrr regA regB s
  | .movlm literal addr => Sys2Proof.Machine.execMovlm literal addr s
  | .movrm regA addr => Sys2Proof.Machine.execMovrm regA addr s
  | .movemr addr regA => Sys2Proof.Machine.execMovemr addr regA s
  | .movlir literal regA => Sys2Proof.Machine.execMovlir literal regA s
  | .moveirr regA regB => Sys2Proof.Machine.execMoveirr regA regB s
  | .moveirm regA addr => Sys2Proof.Machine.execMoveirm regA addr s
  | .moveimr addr regA => Sys2Proof.Machine.execMoveimr addr regA s
  | .add regA regB => Sys2Proof.Machine.execAdd regA regB s
  | .subtract regA regB => Sys2Proof.Machine.execSubtract regA regB s
  | .multiply regA regB => Sys2Proof.Machine.execMultiply regA regB s
  | .divide regA regB => Sys2Proof.Machine.execDivide regA regB s
  | .increment regA => Sys2Proof.Machine.execIncrement regA s
  | .decrement regA => Sys2Proof.Machine.execDecrement regA s
  | .and regA regB => Sys2Proof.Machine.execAnd regA regB s
  | .or regA regB => Sys2Proof.Machine.execOr regA regB s
  | .xor regA regB => Sys2Proof.Machine.execXor regA regB s
  | .not regA => Sys2Proof.Machine.execNot regA s
  | .shiftleft regA literal => Sys2Proof.Machine.execShiftleft regA literal s
  | .shiftright regA literal => Sys2Proof.Machine.execShiftright regA literal s

end Sys2Proof.Machine
end

