-- ==== Sys2Proof/Machine/Step.lean ====
section
/-! DEFINITION. One step (spec 70_reset_and_hazards.md R214, 30_encoding.md R91), and placing an instruction where the
next step fetches. -/

namespace Sys2Proof.Machine

/-- R214 and R91: Faulted answers `AlreadyFaulted`; Halted executes nothing and changes nothing (R187); otherwise
decode, set `started`, execute with the PC update. What a fault leaves behind is R183's, said by `State.stepRequest`. -/
def step (s : State) : Host.Outcome State Fault Refusal :=
  if s.faulted then raise .alreadyFaulted
  else if s.hlt then .next s
  else
    match s.fetch with
    | .error e => raise e
    | .ok i => exec i { s with started := true }

/-- The state with a table word's bytes stored at PC, where `step` fetches (the ones that lie in the buffer). This
stands for the host's `load`, the only way a program comes into memory (R212, R217; log 7). -/
def State.withFetchWord (s : State) (nbits w : Nat) : State :=
  { s with mem := s.mem.storeBytes s.pc.toNat ((tableBytes nbits w).take (s.mem.size - s.pc.toNat)) }

end Sys2Proof.Machine
end

