-- ==== Sys2Proof/Machine/Lifecycle.lean ====
section
/-! DEFINITION. What the host can do to an instance (spec 70_reset_and_hazards.md R210 to R219) and what it can see
(60_exceptions.md R196). `new` is `State.new` and `init` is `State.init`. -/

namespace Sys2Proof.Machine

/-- What `step` and `run` return (R214, R215): `Ok(status)` or `Err(error)`. -/
inductive Reply where
  | ok (status : Status)
  | err (e : Fault)
  /-- No spec reply: an instruction without a meaning. No state answers it. -/
  | refused (r : Refusal)
deriving DecidableEq, Repr

/-- `step()` as the host sees it: the state after it and the reply. An error leaves the state before the step with
`faulted` set (R183); `Ok` carries Halted or Running by HLT (R91, R214). -/
def State.stepRequest (s : State) : State × Reply :=
  match step s with
  | .next t => (t, .ok (if t.hlt then .halted else .running))
  | .fault e => (s.markFaulted, .err e)
  | .refused r => (s, .refused r)

/-- The loop of R215 for at most `fuel` steps; `none` when it has not returned by then (R195: `run` is partial). -/
def State.runLoop : Nat → State → Option (State × Reply)
  | 0, s => if s.hlt then some (s, .ok .halted) else none
  | fuel + 1, s =>
    if s.hlt then some (s, .ok .halted)
    else
      match s.stepRequest with
      | (t, .ok _) => State.runLoop fuel t
      | (t, r) => some (t, r)

/-- `run()` (R215), under fuel. -/
def State.runRequest (fuel : Nat) (s : State) : Option (State × Reply) :=
  if s.faulted then some (s, .err .alreadyFaulted) else s.runLoop fuel

/-- R215, R195: `run()` returns for no number of steps. -/
def State.RunNeverReturns (s : State) : Prop := ∀ fuel, s.runRequest fuel = none

/-- `load(offset, bytes)` (R212): two checks in order, then the bytes; nothing but memory is read or written. -/
def State.load (s : State) (offset : Nat) (bytes : List Byte) : State × Except LoadError Unit :=
  if bytes.length > s.mem.size then (s, .error .outOfMemory)
  else if offset + bytes.length > s.mem.size then (s, .error .badOffset)
  else ({ s with mem := s.mem.storeBytes offset bytes }, .ok ())

/-- What introspection gives the host (R196): registers, PC, FLAGS and the memory bytes, and neither marker. -/
structure View where
  regs  : GeneralRegs
  pc    : Word
  flags : Word
  bytes : List Byte
deriving DecidableEq, Repr

/-- An introspection read; it changes no state (R196). -/
def State.inspect (s : State) : View where
  regs := s.regs
  pc := s.pc
  flags := s.flags
  bytes := s.mem.bytesFrom 0 s.mem.size

/-- The host's interactions that can change state (R219); `run` is repeated `step`. -/
inductive Request where
  | init
  | load (offset : Nat) (bytes : List Byte)
  | step
deriving DecidableEq, Repr

/-- The state one interaction leaves. -/
def State.serve (s : State) : Request → State
  | .init => s.init
  | .load offset bytes => (s.load offset bytes).1
  | .step => s.stepRequest.1

/-- The state a sequence of interactions leaves, the first one first (R216: one agent at a time). -/
def State.serveAll (s : State) : List Request → State
  | [] => s
  | r :: rs => (s.serve r).serveAll rs

end Sys2Proof.Machine
end

