-- ==== Sys2Proof/Machine/RuleDecoder.lean ====
section
/-! DEFINITION. The decoder as R86 to R90 write it (spec 30_encoding.md): one loop over the operand table, a cursor into
memory, the access primitives of R53, and R90's record. The machine decodes by `State.fetch`; a statement says that the
two agree, on every record and on every error. -/

namespace Sys2Proof.Machine

/-- What a successful decode yields (R90). -/
structure DecodeRecord where
  op     : Mnemonic
  slots  : List Slot
  values : List Word
  width  : Nat
deriving DecidableEq, Repr

/-- The record of an instruction. -/
def recordOf (i : Instr) : DecodeRecord where
  op := i.mnemonic
  slots := i.slots
  values := i.values
  width := i.mnemonic.width

/-- The loop of R88: the operands left to read, the cursor `a`, and what has been read so far. -/
def State.readOperands (s : State) : List OperandKind → Nat → List Slot → List Word → Except Fault (List Slot × List Word)
  | [], _, slots, values => .ok (slots, values)
  | .register :: kinds, a, slots, values =>
    match s.mem.read8 a with
    | .error e => .error e
    | .ok b =>
      match s.maps.resolve b with
      | none => .error (.invalidRegister b)
      | some sl => s.readOperands kinds (a + OperandKind.register.width) (slots ++ [sl]) values
  | .literal :: kinds, a, slots, values =>
    match s.mem.read16 a with
    | .error e => .error e
    | .ok v => s.readOperands kinds (a + OperandKind.literal.width) slots (values ++ [v])
  | .address :: kinds, a, slots, values =>
    match s.mem.read16 a with
    | .error e => .error e
    | .ok v => s.readOperands kinds (a + OperandKind.address.width) slots (values ++ [v])

/-- R86, R87, R88, R90 in order. -/
def State.decodeByRules (s : State) : Except Fault DecodeRecord :=
  match s.mem.read8 s.pc.toNat with
  | .error e => .error e
  | .ok b =>
    match s.maps.lookup b with
    | none => .error (.unimplementedInstruction b)
    | some op =>
      match s.readOperands op.operands (s.pc.toNat + 1) [] [] with
      | .error e => .error e
      | .ok (slots, values) => .ok { op, slots, values, width := op.width }

end Sys2Proof.Machine
end

