-- ==== Sys2Proof/Safety.lean ====
section
/-! DEFINITION. The terms the statements use: which slot and which bytes an instruction may write, what an instruction's
next state is when it has one result, the invariant, and a run without errors. -/

namespace Sys2Proof.Machine

/-- The slot an instruction writes as its destination operand (41_data_movement.md, 42_alu.md); COMPARE and HALT
write FLAGS by their own semantics and the jumps write PC, which is not said here. -/
def destination : Instr → Option Slot
  | .halt | .compare _ _ => none
  | .jump _ | .jumpeq _ | .jumplt _ | .jumpgt _ | .jumplte _ | .jumpgte _ => none
  | .movlm _ _ | .movrm _ _ | .movlir _ _ | .moveirm _ _ => none
  | .movlr _ regA | .movemr _ regA | .moveimr _ regA => some regA
  | .movrr _ regB | .moveirr _ regB => some regB
  | .add _ regB | .subtract _ regB | .multiply _ regB | .divide _ regB => some regB
  | .and _ regB | .or _ regB | .xor _ regB => some regB
  | .increment regA | .decrement regA | .not regA => some regA
  | .shiftleft regA _ | .shiftright regA _ => some regA

/-- R29: the slots an instruction may change besides PC. -/
def mayChange (i : Instr) (sl : Slot) : Prop :=
  destination i = some sl ∨ (sl = .flags ∧ (i = .halt ∨ ∃ a b, i = .compare a b))

/-- The address a storing instruction stores at and the word it stores (R142, R143, R145, R147), computed as its meaning
computes them. -/
def storeOf (s : State) : Instr → Option (Nat × Word)
  | .movlm literal addr => some (absoluteAddress addr, literal)
  | .movrm regA addr => some (absoluteAddress addr, s.read regA)
  | .movlir literal regA => some (s.indirectAddress regA, literal)
  | .moveirm regA addr =>
    let a := s.indirectAddress regA
    some (absoluteAddress addr, wordOf (s.mem.byteAt a) (s.mem.byteAt (a + 1)))
  | .halt | .compare _ _ | .jump _ | .jumpeq _ | .jumplt _ | .jumpgt _ | .jumplte _ | .jumpgte _ => none
  | .movlr _ _ | .movrr _ _ | .movemr _ _ | .moveirr _ _ | .moveimr _ _ => none
  | .add _ _ | .subtract _ _ | .multiply _ _ | .divide _ _ | .and _ _ | .or _ _ | .xor _ _ => none
  | .increment _ | .decrement _ | .not _ | .shiftleft _ _ | .shiftright _ _ => none

/-- The ADDRESS operand of a jump (R128). -/
def jumpTarget : Instr → Option Word
  | .jump addr | .jumpeq addr | .jumplt addr | .jumpgt addr | .jumplte addr | .jumpgte addr => some addr
  | .halt | .compare _ _ | .movlr _ _ | .movrr _ _ | .movlm _ _ | .movrm _ _ | .movemr _ _ | .movlir _ _ => none
  | .moveirr _ _ | .moveirm _ _ | .moveimr _ _ => none
  | .add _ _ | .subtract _ _ | .multiply _ _ | .divide _ _ | .and _ _ | .or _ _ | .xor _ _ => none
  | .increment _ | .decrement _ | .not _ | .shiftleft _ _ | .shiftright _ _ => none

/-- What no instruction changes: the markers, the capacity (R50) and the maps. -/
structure SameInstance (s t : State) : Prop where
  faulted : t.faulted = s.faulted
  started : t.started = s.started
  size    : t.mem.size = s.mem.size
  maps    : t.maps = s.maps

/-- Every byte of memory reads as before. -/
def SameBytes (s t : State) : Prop := ∀ a, t.mem.byteAt a = s.mem.byteAt a

/-- PC after the fall-through of R93, as a number: `(before + width) mod 2^16`. -/
def PcFallsThrough (before after : Word) (width : Nat) : Prop := after.toNat = (before.toNat + width) % 65536

/-- `t` is `s` after an instruction of `width` bytes that writes `v` to the slot `dst` and nothing else: R92 to R94, with
its frame. Where `dst` is PC, the width is added to the value written. -/
structure WroteSlot (dst : Slot) (v width : Nat) (s t : State) : Prop where
  value  : dst ≠ .pc → (t.read dst).toNat = v
  pc     : t.pc.toNat = ((if dst = .pc then v else s.pc.toNat) + width) % 65536
  others : ∀ sl, sl ≠ dst → sl ≠ .pc → t.read sl = s.read sl
  bytes  : SameBytes s t
  same   : SameInstance s t

/-- `t` is `s` after an instruction of `width` bytes that stores the 16-bit `v` at `a`, little-endian, and nothing else. -/
structure StoredWord (a : Nat) (v : Word) (width : Nat) (s t : State) : Prop where
  low    : (t.mem.byteAt a).toNat = v.toNat % 256
  high   : (t.mem.byteAt (a + 1)).toNat = v.toNat / 256
  others : ∀ x, x ≠ a → x ≠ a + 1 → t.mem.byteAt x = s.mem.byteAt x
  pc     : PcFallsThrough s.pc t.pc width
  slots  : ∀ sl, sl ≠ .pc → t.read sl = s.read sl
  same   : SameInstance s t

/-- The instruction completes and its next state is `s` with PC at `addr` if bit `k` of FLAGS is set and 3 bytes on
otherwise (R93, R95), and nothing else changed. -/
def JumpsOnBit (i : Instr) (k : Nat) (addr : Word) (s : State) : Prop :=
  ∃ t, exec i s = .next t ∧
    (s.flags.getLsbD k = true → t.pc = addr) ∧ (s.flags.getLsbD k = false → PcFallsThrough s.pc t.pc 3) ∧
    (∀ sl, sl ≠ .pc → t.read sl = s.read sl) ∧ SameBytes s t ∧ SameInstance s t

/-- The 16-bit number at `a`, little-endian (R53, R55). -/
def wordAt (m : Memory) (a : Nat) : Nat := (m.byteAt a).toNat + 256 * (m.byteAt (a + 1)).toNat

/-- The bytes from `a` up are `bs`, all inside the buffer. -/
def BytesAt (m : Memory) (a : Nat) (bs : List Byte) : Prop :=
  a + bs.length ≤ m.size ∧ ∀ k b, bs[k]? = some b → m.byteAt (a + k) = b

/-- The invariant: memory in canonical form inside the buffer, maps that R7 allows, and a state no step has completed
in holds only zeros (R33, R34, R91). -/
structure State.Inv (s : State) : Prop where
  memory : s.mem.wf = true
  maps   : s.maps.wf = true
  unrun  : s.started = false → ∀ sl, s.read sl = 0

/-- `n` steps of the machine behind the host's interface, stopping at the first error. -/
def runSteps (n : Nat) (s : State) : Host.Outcome State Fault Refusal := Host.Core.run core n s

/-- A run of `n` steps that raises no error. -/
def State.SafeFor (s : State) (n : Nat) : Prop := ∃ t, runSteps n s = .next t

end Sys2Proof.Machine
end

