-- ==== Sys2Proof/Certificates/Slice0/Obligations.lean ====
section
/-! DEFINITION. The statements about the machine. Each docstring names the rule or section of spec/ it formalises and, where
the spec marks a point as its own decision (92_eei_decisions.md) or the model fixed one, the decision and the log entry. -/

open Sys2Proof Sys2Proof.Machine

/-! ### Encoding and decoding -/

/-- Decoding an encoded well-formed instruction gives it back, operands and all, under every pair of maps (30_encoding.md
sections 1 to 3). The byte values are parameters (decisions D2, D3; log 2). -/
def Obligations.DecodeOfEncodeIsTheInstruction : Prop :=
  ∀ (m : Maps) (i : Instr) (rest : List Byte), i.wf m = true → decode m (encode m i ++ rest) = .ok (i, rest)

/-- Whatever bytes decode to an instruction are that instruction's encoding: no byte is ignored and no second word has the
same meaning (30_encoding.md sections 1 to 3). -/
def Obligations.DecodedBytesAreTheEncoding : Prop :=
  ∀ (m : Maps) (bs rest : List Byte) (i : Instr), decode m bs = .ok (i, rest) → bs = encode m i ++ rest

/-- Injective maps are exactly the maps under which every instruction is well-formed (00_scope.md section 4: the injectivity
the spec derives there). -/
def Obligations.MapsAreInjectiveExactlyWhenEveryInstructionIsWellFormed : Prop :=
  ∀ m : Maps, m.wf = true ↔ ∀ i : Instr, i.wf m = true

/-- Byte strings the spec writes out for its examples decode to the instructions they stand for (default maps: decisions D2, D3). -/
def Obligations.WrittenOutBytesDecodeToTheirInstructions : Prop :=
  decode Maps.default [0x00] = .ok (.halt, []) ∧
  decode Maps.default [0x02, 0x10, 0x00] = .ok (.jump 0x0010, []) ∧
  decode Maps.default [0x05, 0x0C, 0x00] = .ok (.jumpgt 0x000C, []) ∧
  decode Maps.default [0x08, 0xCD, 0xAB, 0x02] = .ok (.movlr 0xABCD .r2, []) ∧
  decode Maps.default [0x0A, 0x34, 0x12, 0x00, 0x01] = .ok (.movlm 0x1234 0x0100, []) ∧
  decode Maps.default [0x0B, 0x05, 0x02, 0x01] = .ok (.movrm .r5 0x0102, []) ∧
  decode Maps.default [0x10, 0x00, 0x02, 0x05] = .ok (.moveimr 0x0200 .r5, []) ∧
  decode Maps.default [0x11, 0x00, 0x08] = .ok (.add .r0 .pc, []) ∧
  decode Maps.default [0x1A, 0x09] = .ok (.not .flags, []) ∧
  decode Maps.default [0x1B, 0x02, 0x04, 0x00] = .ok (.shiftleft .r2 4, [])

/-- R85: the width is one opcode byte and the operand widths, is fixed by the opcode byte alone, is 5 for MOVLM only, and is
what a JUMPLT that is not taken advances by. -/
def Obligations.WidthIsFixedByTheOpcodeByte : Prop :=
  (∀ (m : Maps) (bs rest : List Byte) (i : Instr), decode m bs = .ok (i, rest) →
    bs.length = rest.length + (1 + (i.mnemonic.operands.map OperandKind.width).sum)) ∧
  (∀ (m : Maps) (b : Byte) (bs bs' rest rest' : List Byte) (i i' : Instr),
    decode m (b :: bs) = .ok (i, rest) → decode m (b :: bs') = .ok (i', rest') →
    bs.length + rest'.length = bs'.length + rest.length) ∧
  (OperandKind.register.width = 1 ∧ OperandKind.literal.width = 2 ∧ OperandKind.address.width = 2) ∧
  (∀ op : Mnemonic, op.width = 5 ↔ op = .movlm) ∧
  (∀ (addr : Word) (s : State), s.flags.getLsbD 1 = false → s.pc.toNat + 3 < 65536 →
    ∃ t, exec (.jumplt addr) s = .next t ∧ t.pc.toNat = s.pc.toNat + 3)

/-- The machine's fetch and the decoder as the spec writes it (30_encoding.md section 3: opcode read, lookup, a loop over the
operand table with an unwrapped cursor and the access primitives) agree in every state, on the record and on the error.
The order of the checks is decision D11 (log 6). -/
def Obligations.FetchAgreesWithTheOperandLoop : Prop :=
  ∀ s : State, s.fetch.map recordOf = s.decodeByRules

/-- R87: an opcode byte without an entry raises UnimplementedInstruction naming the byte, reads no operand byte and leaves PC. -/
def Obligations.UnknownOpcodeStopsBeforeItsOperands : Prop :=
  ∀ (s : State) (b : Byte), s.faulted = false → s.hlt = false → s.mem.read8 s.pc.toNat = .ok b →
    (∀ op, s.maps.opcodes.byteOf op ≠ b) →
    step s = .fault (.unimplementedInstruction b) ∧ s.stepRequest.1.pc = s.pc ∧
    ∀ rest, decode s.maps (b :: rest) = .error (.unimplementedInstruction b)

/-- R86: the opcode is the byte at PC, at any PC, and a PC at or past the end of memory raises OutOfBounds. -/
def Obligations.OpcodeIsFetchedAtPcOrOutOfBounds : Prop :=
  ∀ s : State, s.faulted = false → s.hlt = false →
    (s.mem.size < s.pc.toNat + 1 → step s = .fault .outOfBounds) ∧
    (∀ b i, s.mem.read8 s.pc.toNat = .ok b → s.fetch = .ok i → s.maps.opcodes.byteOf i.mnemonic = b)

/-- A selector byte resolves to the slot it names, and one that names no slot is a decode error, wherever the REGISTER operand
stands in the instruction (10_state.md section 2, 30_encoding.md section 3). That the error carries the byte is decision D21
(log 22), and that a bad first selector decides whatever follows it is decision D11 (log 6). -/
def Obligations.UnknownSelectorIsADecodeError : Prop :=
  (∀ (m : Maps) (sl : Slot), m.wf = true → m.resolve (m.selectors.byteOf sl) = some sl) ∧
  (∀ (m : Maps) (x b : Byte) (op : Mnemonic) (kinds : List OperandKind) (rest : List Byte),
    m.lookup x = some op → (∀ sl, m.selectors.byteOf sl ≠ b) → op.operands = .register :: kinds →
    decode m (x :: b :: rest) = .error (.invalidRegister b)) ∧
  (∀ (m : Maps) (x a b : Byte) (op : Mnemonic) (sl : Slot) (rest : List Byte),
    m.lookup x = some op → (∀ sl, m.selectors.byteOf sl ≠ b) → op.operands = [.register, .register] →
    m.resolve a = some sl → decode m (x :: a :: b :: rest) = .error (.invalidRegister b)) ∧
  (∀ (m : Maps) (x lo hi b : Byte) (op : Mnemonic) (k : OperandKind) (rest : List Byte),
    m.lookup x = some op → (∀ sl, m.selectors.byteOf sl ≠ b) → op.operands = [k, .register] → k ≠ .register →
    decode m (x :: lo :: hi :: b :: rest) = .error (.invalidRegister b))

/-! ### Memory -/

/-- R52: each access at `a` of its width succeeds exactly when `a + width ≤ MEMORY_SIZE`, and raises OutOfBounds exactly otherwise. -/
def Obligations.AccessesFailExactlyPastTheEndOfMemory : Prop :=
  ∀ (m : Memory) (a : Nat) (v : Word),
    ((∃ x, m.read8 a = .ok x) ↔ a + 1 ≤ m.size) ∧ (m.read8 a = .error .outOfBounds ↔ ¬ a + 1 ≤ m.size) ∧
    ((∃ x, m.read16 a = .ok x) ↔ a + 2 ≤ m.size) ∧ (m.read16 a = .error .outOfBounds ↔ ¬ a + 2 ≤ m.size) ∧
    ((∃ t, m.write8 a v = .ok t) ↔ a + 1 ≤ m.size) ∧ (m.write8 a v = .error .outOfBounds ↔ ¬ a + 1 ≤ m.size) ∧
    ((∃ t, m.write16 a v = .ok t) ↔ a + 2 ≤ m.size) ∧ (m.write16 a v = .error .outOfBounds ↔ ¬ a + 2 ≤ m.size)

/-- R55: a 16-bit store reads back as its low byte then its high byte, also to a read one byte further up, and every LITERAL
and ADDRESS field is little-endian, the opcode byte first and the operand bytes at increasing addresses. -/
def Obligations.ByteOrderIsLittleEndianEverywhere : Prop :=
  (∀ (m t : Memory) (a : Nat) (v w : Word), m.write16 a v = .ok t →
    (t.byteAt a).toNat = v.toNat % 256 ∧ (t.byteAt (a + 1)).toNat = v.toNat / 256 ∧ t.read16 a = .ok v ∧
    (t.read16 (a + 1) = .ok w → w.toNat = v.toNat / 256 + 256 * (m.byteAt (a + 2)).toNat)) ∧
  (∀ (s : State) (x b₁ b₂ b₃ b₄ : Byte), s.maps.lookup x = some .movlm →
    BytesAt s.mem s.pc.toNat [x, b₁, b₂, b₃, b₄] →
    ∃ literal addr, s.fetch = .ok (.movlm literal addr) ∧
      literal.toNat = b₁.toNat + 256 * b₂.toNat ∧ addr.toNat = b₃.toNat + 256 * b₄.toNat) ∧
  (∀ (m : Maps) (x lo hi : Byte) (op : Mnemonic) (k : OperandKind) (kinds : List OperandKind) (rest left : List Byte) (i : Instr),
    m.lookup x = some op → op.operands = k :: kinds → k ≠ .register → decode m (x :: lo :: hi :: rest) = .ok (i, left) →
    (i.values.map BitVec.toNat).head? = some (lo.toNat + 256 * hi.toNat)) ∧
  (∀ (m : Maps) (x b lo hi : Byte) (op : Mnemonic) (k : OperandKind) (rest left : List Byte) (i : Instr),
    m.lookup x = some op → op.operands = [.register, k] → k ≠ .register → decode m (x :: b :: lo :: hi :: rest) = .ok (i, left) →
    i.values.map BitVec.toNat = [lo.toNat + 256 * hi.toNat])

/-- R58: an instruction that stores writes the two bytes of its word at its one target and no other byte; every other
instruction leaves all of memory. -/
def Obligations.InstructionsWriteOnlyTheTwoBytesOfTheirTarget : Prop :=
  ∀ (i : Instr) (s t : State), exec i s = .next t →
    (storeOf s i = none → SameBytes s t) ∧
    (∀ a v, storeOf s i = some (a, v) →
      (t.mem.byteAt a).toNat = v.toNat % 256 ∧ (t.mem.byteAt (a + 1)).toNat = v.toNat / 256 ∧
      ∀ x, x ≠ a → x ≠ a + 1 → t.mem.byteAt x = s.mem.byteAt x)

/-- Every read of a byte returns the last write to it, and a write changes only the byte it names (20_memory.md sections 5
and 7; the primitives of section 2, decision D10). -/
def Obligations.ByteWritesReadBackAndTouchNothingElse : Prop :=
  ∀ (m t : Memory) (a : Nat) (v : Word), m.write8 a v = .ok t →
    (∃ x, t.read8 a = .ok x ∧ x.toNat = v.toNat % 256) ∧ ∀ b, b ≠ a → t.read8 b = m.read8 b

/-- The model's form of memory is canonical: equal capacities and equal bytes make equal data (log 4; the model's choice of form). -/
def Obligations.MemoriesThatReadAlikeAreEqual : Prop :=
  ∀ m t : Memory, m.wf = true → t.wf = true → m.size = t.size → (∀ a, m.byteAt a = t.byteAt a) → m = t

/-! ### Construction, init, load -/

/-- After construction every register, PC, FLAGS and every byte is 0 and the status is Ready, for every capacity and maps
(10_state.md section 6; the markers are decision D14). -/
def Obligations.ConstructionZeroesEverything : Prop :=
  ∀ c : Config, (∀ sl, (State.new c).read sl = 0) ∧ (∀ a, (State.new c).mem.byteAt a = 0) ∧
    (State.new c).mem.size = c.memorySize ∧ (State.new c).maps = c.maps ∧ (State.new c).status = .ready

/-- With the default maps the first step after construction is a HALT at address 0, or OutOfBounds when there is no memory
(70_reset_and_hazards.md sections 1 and 4; the byte 0x00 of HALT is decision D2). -/
def Obligations.FirstStepAfterConstructionHaltsAtAddressZero : Prop :=
  ∀ n : Nat, step (State.new { memorySize := n, maps := Maps.default }) =
    if n = 0 then .fault .outOfBounds
    else .next { State.new { memorySize := n, maps := Maps.default } with flags := 0x0020, started := true }

/-- `init` zeroes every register, PC and FLAGS, makes the status Ready and keeps memory (10_state.md section 6; decision D14). -/
def Obligations.InitZeroesRegistersAndKeepsMemory : Prop :=
  ∀ s : State, (∀ sl, s.init.read sl = 0) ∧ s.init.status = .ready ∧ s.init.mem = s.mem ∧ s.init.maps = s.maps

/-- `load` checks OutOfMemory, then BadOffset, writes nothing on either, and otherwise writes exactly the given bytes
and no register or marker (70_reset_and_hazards.md section 2; decision D15). -/
def Obligations.LoadChecksThenWritesExactlyItsBytes : Prop :=
  ∀ (s : State) (offset : Nat) (bytes : List Byte),
    (s.mem.size < bytes.length → s.load offset bytes = (s, .error .outOfMemory)) ∧
    (bytes.length ≤ s.mem.size → s.mem.size < offset + bytes.length → s.load offset bytes = (s, .error .badOffset)) ∧
    (offset + bytes.length ≤ s.mem.size → ∃ t, s.load offset bytes = (t, .ok ()) ∧
      (∀ k b, bytes[k]? = some b → t.mem.byteAt (offset + k) = b) ∧
      (∀ x, x < offset ∨ offset + bytes.length ≤ x → t.mem.byteAt x = s.mem.byteAt x) ∧
      (∀ sl, t.read sl = s.read sl) ∧ SameInstance s t)

/-! ### The invariant -/

/-- The state after construction meets the invariant exactly when its maps are injective; the reset state meets it. -/
def Obligations.ConstructionMeetsTheInvariant : Prop :=
  (∀ c : Config, (State.new c).Inv ↔ c.maps.wf = true) ∧ State.reset.Inv

/-- Every step keeps the invariant: memory stays canonical and inside its capacity, the maps stay injective, and a state in
which no step has completed holds only zeros (10_state.md sections 1 and 6, 20_memory.md section 1; the canonical form is log 4). -/
def Obligations.EveryStepKeepsTheInvariant : Prop :=
  ∀ s t : State, s.Inv → step s = .next t → t.Inv

/-- Whatever sequence of init, load and step requests follows construction with injective maps, errors included, the state
meets the invariant and the capacity and the maps are those of construction (70_reset_and_hazards.md sections 3 and 5; the
invariant's memory part rests on the canonical form, log 4, and init and load are decisions D14 and D15). -/
def Obligations.EveryHostSessionKeepsTheInvariant : Prop :=
  ∀ (c : Config) (requests : List Request), c.maps.wf = true →
    ((State.new c).serveAll requests).Inv ∧ ((State.new c).serveAll requests).mem.size = c.memorySize ∧
    ((State.new c).serveAll requests).maps = c.maps

/-! ### The step -/

/-- When the bytes at PC decode to an instruction, a step in a Ready or Running state is its meaning, with `started` set
before it (30_encoding.md section 4). -/
def Obligations.StepRunsTheDecodedInstruction : Prop :=
  ∀ (s : State) (i : Instr) (rest : List Byte), s.faulted = false → s.hlt = false →
    decode s.maps (s.mem.bytesFrom s.pc.toNat maxWidth) = .ok (i, rest) →
    step s = exec i { s with started := true }

/-- When an instruction's encoding stands in memory at PC, a step in a Ready or Running state runs that instruction
(30_encoding.md sections 1, 3 and 4). -/
def Obligations.StepRunsTheInstructionWhoseBytesStandAtPc : Prop :=
  ∀ (s : State) (i : Instr), s.faulted = false → s.hlt = false → i.wf s.maps = true →
    BytesAt s.mem s.pc.toNat (encode s.maps i) → step s = exec i { s with started := true }

/-- Every step answers a next state or one of the named errors: no state is without an answer (30_encoding.md section 3,
60_exceptions.md section 1). -/
def Obligations.EveryStepAnswersAStateOrANamedError : Prop :=
  ∀ s : State, (∃ t, step s = .next t) ∨ ∃ e, step s = .fault e

/-- The execute phase raises OutOfBounds only for the seven moves that access memory, and ArithmeticError only for a DIVIDE
whose divisor is 0; it raises nothing else (60_exceptions.md section 1). -/
def Obligations.ExecuteRaisesOnlyTheTabledErrors : Prop :=
  ∀ (i : Instr) (s : State), (∃ t, exec i s = .next t) ∨
    (exec i s = .fault .outOfBounds ∧
      i.mnemonic ∈ [.movlm, .movrm, .movemr, .movlir, .moveirr, .moveirm, .moveimr]) ∨
    (exec i s = .fault .arithmeticError ∧ ∃ regA regB, i = .divide regA regB ∧ s.read regB = 0)

/-- R186: a step or run request in Faulted answers AlreadyFaulted and changes nothing, and of all requests only `init`
leaves Faulted (or a new construction). -/
def Obligations.FaultedIsLeftOnlyByInit : Prop :=
  (∀ s : State, s.faulted = true →
    step s = .fault .alreadyFaulted ∧ s.stepRequest = (s, .err .alreadyFaulted) ∧
    (∀ n, s.runRequest n = some (s, .err .alreadyFaulted)) ∧ s.init.faulted = false ∧
    ∀ r, (s.serve r).faulted = false → r = .init) ∧
  ∀ c, (State.new c).faulted = false

/-- A step or run request in Halted changes nothing and answers Halted, and no sequence of loads and steps clears HLT
(60_exceptions.md section 3; decision D13). -/
def Obligations.HaltedIsLeftOnlyByInit : Prop :=
  ∀ s : State, s.status = .halted →
    step s = .next s ∧ s.stepRequest = (s, .ok .halted) ∧ (∀ n, s.runRequest n = some (s, .ok .halted)) ∧
    ∀ requests : List Request, .init ∉ requests → (s.serveAll requests).status = .halted

/-- An error leaves every register, PC, FLAGS, every byte and `started` as they were before the step, sets `faulted`, and is
returned to the host (60_exceptions.md section 2; decision D11). -/
def Obligations.ErrorsLeaveEverythingButTheFaultedMarker : Prop :=
  ∀ (s : State) (e : Fault), step s = .fault e → ∃ t, s.stepRequest = (t, .err e) ∧
    t.status = .faulted ∧ (∀ sl, t.read sl = s.read sl) ∧ t.mem = s.mem ∧ t.started = s.started ∧ t.maps = s.maps

/-- R216: the table of the statuses, row by row. -/
def Obligations.StatusFollowsTheLifecycleTable : Prop :=
  (∀ c, (State.new c).status = .ready) ∧
  (∀ s : State, s.init.status = .ready) ∧
  (∀ (s : State) (offset : Nat) (bytes : List Byte), (s.load offset bytes).1.status = s.status) ∧
  (∀ s : State, s.status = .ready ∨ s.status = .running →
    (∃ t, s.stepRequest = (t, .ok .running) ∧ t.hlt = false ∧ t.status = .running) ∨
    (∃ t, s.stepRequest = (t, .ok .halted) ∧ t.hlt = true ∧ t.status = .halted) ∨
    (∃ t e, s.stepRequest = (t, .err e) ∧ t.status = .faulted)) ∧
  (∀ s : State, s.status = .halted → s.stepRequest.1 = s ∧ ∀ n, (s.runRequest n).map Prod.fst = some s) ∧
  (∀ s : State, s.status = .faulted → s.stepRequest = (s, .err .alreadyFaulted) ∧
    ∀ n, s.runRequest n = some (s, .err .alreadyFaulted))

/-- `run` under fuel agrees with repeating the step: it returns Halted with the state the steps reach, an error exactly when
the steps raise it, and nothing exactly when the steps end with HLT clear (70_reset_and_hazards.md section 3). The steps after
HLT is set change nothing (decision D13, log 15), and the fuel is the model's choice (log 23). -/
def Obligations.RunAgreesWithRepeatedSteps : Prop :=
  ∀ (n : Nat) (s : State), s.faulted = false →
    (∀ t, s.runRequest n = some (t, .ok .halted) ↔ runSteps n s = .next t ∧ t.hlt = true) ∧
    (∀ e, (∃ t, s.runRequest n = some (t, .err e)) ↔ runSteps n s = .fault e) ∧
    (s.runRequest n = none ↔ ∃ t, runSteps n s = .next t ∧ t.hlt = false)

/-- R195: `run` never returns on a JUMP to itself. -/
def Obligations.RunNeverReturnsOnAJumpToItself : Prop :=
  ∀ s : State, s.faulted = false → s.hlt = false → (Instr.jump s.pc).wf s.maps = true →
    BytesAt s.mem s.pc.toNat (encode s.maps (.jump s.pc)) → s.RunNeverReturns

/-! ### Control -/

/-- HALT sets HLT, leaves every other flag bit, PC, every register and every byte, and halts the machine (40_control.md
section 1; that a halted step changes nothing is decision D13). -/
def Obligations.HaltSetsHltAndStaysInPlace : Prop :=
  ∀ s : State, ∃ t, exec .halt s = .next t ∧
    (∀ k, t.flags.getLsbD k = (s.flags.getLsbD k || k == 5)) ∧ (∀ sl, sl ≠ .flags → t.read sl = s.read sl) ∧
    SameBytes s t ∧ SameInstance s t ∧ (s.faulted = false → t.status = .halted ∧ step t = .next t)

/-- COMPARE overwrites FLAGS with one of three values by the unsigned order of its operands, read before FLAGS is written
(40_control.md section 2; decisions D5, D7). -/
def Obligations.CompareSetsFlagsByTheUnsignedOrder : Prop :=
  ∀ (regA regB : Slot) (s : State), ∃ t, exec (.compare regA regB) s = .next t ∧
    WroteSlot .flags
      (if (s.read regA).toNat < (s.read regB).toNat then 0x0006
        else if (s.read regA).toNat = (s.read regB).toNat then 0x0015 else 0x0018) 3 s t

/-- JUMP sets PC to its operand whatever FLAGS holds and changes nothing else; a target outside memory raises OutOfBounds at
the next step, with PC at the target (40_control.md section 3; the second half is decision D19). -/
def Obligations.JumpSetsPcToItsOperand : Prop :=
  ∀ (addr : Word) (s : State), ∃ t, exec (.jump addr) s = .next t ∧ t.pc = addr ∧
    (∀ sl, sl ≠ .pc → t.read sl = s.read sl) ∧ SameBytes s t ∧ SameInstance s t ∧
    (s.faulted = false → s.hlt = false → s.mem.size < addr.toNat + 1 → step t = .fault .outOfBounds)

/-- Each conditional jump tests its one FLAGS bit: taken, PC is the operand; not taken, PC advances by 3. It changes nothing
else (40_control.md section 4; the wrap of PC is decision D9). -/
def Obligations.ConditionalJumpsFollowTheirOneFlagBit : Prop :=
  ∀ (addr : Word) (s : State),
    JumpsOnBit (.jumpeq addr) 0 addr s ∧ JumpsOnBit (.jumplt addr) 1 addr s ∧ JumpsOnBit (.jumplte addr) 2 addr s ∧
    JumpsOnBit (.jumpgt addr) 3 addr s ∧ JumpsOnBit (.jumpgte addr) 4 addr s

/-! ### Data movement -/

/-- MOVLR and MOVRR write the literal or the source register to their destination and change nothing else; a PC destination
continues at the value plus the width (41_data_movement.md section 1; decisions D7, D8, D9). -/
def Obligations.RegisterMovesWriteTheirDestination : Prop :=
  ∀ s : State,
    (∀ literal regA, ∃ t, exec (.movlr literal regA) s = .next t ∧ WroteSlot regA literal.toNat 4 s t) ∧
    (∀ regA regB, ∃ t, exec (.movrr regA regB) s = .next t ∧ WroteSlot regB (s.read regA).toNat 3 s t)

/-- MOVLM, MOVRM, MOVLIR and MOVEIRM complete when their word (for MOVEIRM also the source word) lies in memory, store it
little-endian at their target and change nothing else but PC (41_data_movement.md sections 2 and 4; decisions D7, D9, D10). -/
def Obligations.StoresWriteTheirWordAtTheirTarget : Prop :=
  ∀ s : State,
    (∀ literal addr, absoluteAddress addr + 2 ≤ s.mem.size → ∃ t, exec (.movlm literal addr) s = .next t ∧
      StoredWord (absoluteAddress addr) literal 5 s t) ∧
    (∀ regA addr, absoluteAddress addr + 2 ≤ s.mem.size → ∃ t, exec (.movrm regA addr) s = .next t ∧
      StoredWord (absoluteAddress addr) (s.read regA) 4 s t) ∧
    (∀ literal regA, s.indirectAddress regA + 2 ≤ s.mem.size → ∃ t, exec (.movlir literal regA) s = .next t ∧
      StoredWord (s.indirectAddress regA) literal 4 s t) ∧
    (∀ regA addr, s.indirectAddress regA + 2 ≤ s.mem.size → absoluteAddress addr + 2 ≤ s.mem.size →
      ∃ t v, exec (.moveirm regA addr) s = .next t ∧ v.toNat = wordAt s.mem (s.indirectAddress regA) ∧
        StoredWord (absoluteAddress addr) v 4 s t)

/-- MOVEMR, MOVEIRR and MOVEIMR complete when the words they read lie in memory, write the little-endian word to their
destination and change nothing else (41_data_movement.md sections 3, 4 and 5; decisions D7, D8, D9). -/
def Obligations.LoadsWriteTheWordTheyRead : Prop :=
  ∀ s : State,
    (∀ addr regA, addr.toNat + 2 ≤ s.mem.size → ∃ t, exec (.movemr addr regA) s = .next t ∧
      WroteSlot regA (wordAt s.mem addr.toNat) 4 s t) ∧
    (∀ regA regB, (s.read regA).toNat + 2 ≤ s.mem.size → ∃ t, exec (.moveirr regA regB) s = .next t ∧
      WroteSlot regB (wordAt s.mem (s.read regA).toNat) 3 s t) ∧
    (∀ addr regA, addr.toNat + 2 ≤ s.mem.size → wordAt s.mem addr.toNat + 2 ≤ s.mem.size →
      ∃ t, exec (.moveimr addr regA) s = .next t ∧
        WroteSlot regA (wordAt s.mem (wordAt s.mem addr.toNat)) 4 s t)

/-- The seven moves that access memory raise OutOfBounds exactly when one of their two-byte accesses passes the end of memory
(41_data_movement.md sections 2 to 5; that both bytes are checked first is decision D10). -/
def Obligations.MemoryMovesFaultExactlyPastTheEnd : Prop :=
  ∀ s : State,
    (∀ literal addr, exec (.movlm literal addr) s = .fault .outOfBounds ↔ s.mem.size < addr.toNat + 2) ∧
    (∀ regA addr, exec (.movrm regA addr) s = .fault .outOfBounds ↔ s.mem.size < addr.toNat + 2) ∧
    (∀ addr regA, exec (.movemr addr regA) s = .fault .outOfBounds ↔ s.mem.size < addr.toNat + 2) ∧
    (∀ literal regA, exec (.movlir literal regA) s = .fault .outOfBounds ↔ s.mem.size < (s.read regA).toNat + 2) ∧
    (∀ regA regB, exec (.moveirr regA regB) s = .fault .outOfBounds ↔ s.mem.size < (s.read regA).toNat + 2) ∧
    (∀ regA addr, exec (.moveirm regA addr) s = .fault .outOfBounds ↔
      s.mem.size < (s.read regA).toNat + 2 ∨ s.mem.size < addr.toNat + 2) ∧
    (∀ addr regA, exec (.moveimr addr regA) s = .fault .outOfBounds ↔
      s.mem.size < addr.toNat + 2 ∨ s.mem.size < wordAt s.mem addr.toNat + 2)

/-- A stored instruction is what the next fetch of its address decodes, also where the storing instruction overwrote its own
bytes. Second clause: when a storing instruction's encoding stands at PC and its words lie in memory, the step completes it with
the operands those bytes held before the store, wherever it stores (20_memory.md section 7; decisions D7, D9, D10, D20). -/
def Obligations.StoredInstructionIsSeenByTheNextFetch : Prop :=
  (∀ (s t : State) (i j : Instr) (p v : Word) (rest : List Byte),
    exec i s = .next t → storeOf s i = some (p.toNat, v) →
    j.wf s.maps = true → encode s.maps j ++ rest = [lowByte v, highByte v] →
    State.fetch { t with pc := p } = .ok j) ∧
  (∀ (s : State) (i : Instr) (p v : Word), s.faulted = false → s.hlt = false → i.wf s.maps = true →
    BytesAt s.mem s.pc.toNat (encode s.maps i) → storeOf s i = some (p.toNat, v) → p.toNat + 2 ≤ s.mem.size →
    (∀ regA addr, i = .moveirm regA addr → s.indirectAddress regA + 2 ≤ s.mem.size) →
    ∃ t, step s = .next t ∧ StoredWord p.toNat v i.mnemonic.width { s with started := true } t ∧
      ∀ (j : Instr) (rest : List Byte), j.wf s.maps = true → encode s.maps j ++ rest = [lowByte v, highByte v] →
        State.fetch { t with pc := p } = .ok j)

/-! ### Arithmetic, logic and shift -/

/-- ADD, SUBTRACT and MULTIPLY write `regA OP regB` reduced mod 2^16 to `regB` and change nothing else, flags included
(42_alu.md sections 1 and 2; decisions D7, D8, D9). -/
def Obligations.AddSubtractMultiplyWrapModulo65536 : Prop :=
  ∀ (regA regB : Slot) (s : State),
    (∃ t, exec (.add regA regB) s = .next t ∧
      WroteSlot regB (((s.read regA).toNat + (s.read regB).toNat) % 65536) 3 s t) ∧
    (∃ t, exec (.subtract regA regB) s = .next t ∧
      WroteSlot regB (((s.read regA).toNat + 65536 - (s.read regB).toNat) % 65536) 3 s t) ∧
    (∃ t, exec (.multiply regA regB) s = .next t ∧
      WroteSlot regB (((s.read regA).toNat * (s.read regB).toNat) % 65536) 3 s t)

/-- DIVIDE with a divisor other than 0 writes the unsigned truncated quotient to `regB` and changes nothing else; with divisor
0 it raises ArithmeticError (42_alu.md section 2; decisions D5, D7, D8, D9). -/
def Obligations.DivideTruncatesAndFaultsOnZero : Prop :=
  ∀ (regA regB : Slot) (s : State),
    ((s.read regB).toNat ≠ 0 → ∃ t, exec (.divide regA regB) s = .next t ∧
      WroteSlot regB ((s.read regA).toNat / (s.read regB).toNat) 3 s t) ∧
    ((s.read regB).toNat = 0 → exec (.divide regA regB) s = .fault .arithmeticError)

/-- INCREMENT and DECREMENT add and subtract one mod 2^16 and change nothing else (42_alu.md section 3; decisions D7 to D9). -/
def Obligations.IncrementDecrementWrapModulo65536 : Prop :=
  ∀ (regA : Slot) (s : State),
    (∃ t, exec (.increment regA) s = .next t ∧ WroteSlot regA (((s.read regA).toNat + 1) % 65536) 2 s t) ∧
    (∃ t, exec (.decrement regA) s = .next t ∧ WroteSlot regA (((s.read regA).toNat + 65535) % 65536) 2 s t)

/-- AND, OR, XOR write the bitwise result to `regB`, NOT writes `0xFFFF - x` to its register; nothing else changes
(42_alu.md section 4; decisions D7, D8, D9). -/
def Obligations.BitwiseInstructionsWriteTheBitwiseResult : Prop :=
  ∀ (regA regB : Slot) (s : State),
    (∃ t, exec (.and regA regB) s = .next t ∧ WroteSlot regB ((s.read regA).toNat &&& (s.read regB).toNat) 3 s t) ∧
    (∃ t, exec (.or regA regB) s = .next t ∧ WroteSlot regB ((s.read regA).toNat ||| (s.read regB).toNat) 3 s t) ∧
    (∃ t, exec (.xor regA regB) s = .next t ∧ WroteSlot regB ((s.read regA).toNat ^^^ (s.read regB).toNat) 3 s t) ∧
    (∃ t, exec (.not regA) s = .next t ∧ WroteSlot regA (0xFFFF - (s.read regA).toNat) 2 s t)

/-- SHIFTLEFT and SHIFTRIGHT multiply by and divide by 2^n as unsigned numbers, and give 0 for every count of 16 or more; nothing
else changes (42_alu.md section 5; decisions D5, D6, D7 to D9). -/
def Obligations.ShiftsAreLogicalWithFullCounts : Prop :=
  ∀ (regA : Slot) (literal : Word) (s : State),
    (∃ t, exec (.shiftleft regA literal) s = .next t ∧ WroteSlot regA
      (if literal.toNat ≥ 16 then 0 else (s.read regA).toNat * 2 ^ literal.toNat % 65536) 4 s t) ∧
    (∃ t, exec (.shiftright regA literal) s = .next t ∧ WroteSlot regA
      (if literal.toNat ≥ 16 then 0 else (s.read regA).toNat / 2 ^ literal.toNat) 4 s t)

/-! ### Rules of the whole machine -/

/-- No instruction changes a register other than PC and its destination, except that COMPARE and HALT write FLAGS; in
particular no other instruction changes a flag (10_state.md sections 2 and 4; decision D17). -/
def Obligations.OnlyTheDestinationRegisterChanges : Prop :=
  ∀ (i : Instr) (s t : State), exec i s = .next t →
    ∀ sl, sl ≠ .pc → ¬ mayChange i sl → t.read sl = s.read sl

/-- HALT leaves PC, a jump ends at its operand or 3 bytes on, and every other instruction whose destination is not PC advances
PC by its width (30_encoding.md section 4; the wrap is decision D9). -/
def Obligations.PcMovesByTheWidthOrToTheJumpOperand : Prop :=
  ∀ (i : Instr) (s t : State), exec i s = .next t →
    (i = .halt → t.pc = s.pc) ∧
    (∀ addr, jumpTarget i = some addr → t.pc = addr ∨ PcFallsThrough s.pc t.pc 3) ∧
    (i ≠ .halt → jumpTarget i = none → destination i ≠ some .pc → PcFallsThrough s.pc t.pc i.mnemonic.width)

/-- From a state with HLT clear, only HALT and an instruction whose destination is FLAGS reach Halted: COMPARE never does
(10_state.md section 5, derived there). -/
def Obligations.OnlyHaltOrAFlagsDestinationHalts : Prop :=
  ∀ (i : Instr) (s t : State), s.hlt = false → exec i s = .next t → t.hlt = true →
    i = .halt ∨ destination i = some .flags

/-- No program can read or write the status markers: a meaning commutes with any change of them (10_state.md section 5; that
Ready and Running execute alike is decision D13). -/
def Obligations.InstructionsNeitherReadNorWriteTheMarkers : Prop :=
  ∀ (i : Instr) (s : State) (f b : Bool),
    (∀ t, exec i s = .next t →
      exec i { s with faulted := f, started := b } = .next { t with faulted := f, started := b }) ∧
    (∀ e, exec i s = .fault e → exec i { s with faulted := f, started := b } = .fault e)

/-- A meaning does not depend on the encoding maps: what holds of a mnemonic holds under every OPCODE_MAP and SELECTOR_MAP
(30_encoding.md section 2; decisions D2, D3). -/
def Obligations.MeaningsDoNotDependOnTheMaps : Prop :=
  ∀ (i : Instr) (s : State) (m : Maps),
    (∀ t, exec i s = .next t → exec i { s with maps := m } = .next { t with maps := m }) ∧
    (∀ e, exec i s = .fault e → exec i { s with maps := m } = .fault e)

/-- Ready and Running step the same: in a state that is neither Halted nor Faulted the answer of a step does not depend on
`started` (10_state.md section 5; decision D13). -/
def Obligations.ReadyAndRunningStepTheSame : Prop :=
  ∀ (s : State) (b : Bool), s.faulted = false → s.hlt = false → step { s with started := b } = step s

/-- No interaction changes the capacity of memory or the maps (20_memory.md section 1, 00_scope.md section 4). -/
def Obligations.CapacityAndMapsNeverChange : Prop :=
  ∀ (s : State) (r : Request), (s.serve r).mem.size = s.mem.size ∧ (s.serve r).maps = s.maps

/-- Every interaction of the host keeps the invariant, the capacity and the maps, from every state that meets it: init, a load of
any bytes, and a step with the state it leaves on an error (70_reset_and_hazards.md sections 3 and 5, 60_exceptions.md section 2;
decisions D11, D14, D15; the canonical form is log 4). -/
def Obligations.EveryRequestKeepsTheInvariant : Prop :=
  ∀ (s : State) (r : Request), s.Inv →
    (s.serve r).Inv ∧ (s.serve r).mem.size = s.mem.size ∧ (s.serve r).maps = s.maps
end

