-- ==== Sys2Proof/Laws/Memory.lean ====
section
/-! SUPPORT. The laws of memory: read after write, and that every operation keeps the canonical form. The read-after-write
laws hold of every cell list, canonical or not. -/

namespace Sys2Proof.Machine

/-! ### Byte order -/

theorem lowByte_toNat (v : Word) : (lowByte v).toNat = v.toNat % 256 := by
  simp [lowByte, BitVec.extractLsb'_toNat]

theorem highByte_toNat (v : Word) : (highByte v).toNat = v.toNat / 256 := by
  have := v.isLt
  simp only [highByte, BitVec.extractLsb'_toNat, Nat.shiftRight_eq_div_pow]
  omega

theorem wordOf_toNat (x y : Byte) : (wordOf x y).toNat = x.toNat + 256 * y.toNat := by
  have := x.isLt
  simp only [wordOf, BitVec.toNat_append]
  rw [Nat.shiftLeft_eq, Nat.mul_comm, ← Nat.two_pow_add_eq_or_of_lt (by omega)]
  omega

@[simp] theorem wordOf_low_high (v : Word) : wordOf (lowByte v) (highByte v) = v := by
  apply BitVec.eq_of_toNat_eq
  rw [wordOf_toNat, lowByte_toNat, highByte_toNat]
  omega

@[simp] theorem lowByte_wordOf (x y : Byte) : lowByte (wordOf x y) = x := by
  apply BitVec.eq_of_toNat_eq
  have := x.isLt
  rw [lowByte_toNat, wordOf_toNat]
  omega

@[simp] theorem highByte_wordOf (x y : Byte) : highByte (wordOf x y) = y := by
  apply BitVec.eq_of_toNat_eq
  have := x.isLt
  rw [highByte_toNat, wordOf_toNat]
  omega

/-! ### The cell list -/

theorem mem_insertCell {c d : Host.Cell} {l : List Host.Cell} : d ∈ insertCell c l ↔ d = c ∨ d ∈ l := by
  induction l with
  | nil => simp [insertCell]
  | cons e es ih =>
    simp only [insertCell]
    split <;> simp [ih]
    tauto

theorem find_insertCell_same (c : Host.Cell) (l : List Host.Cell) (h : ∀ d ∈ l, d.1 ≠ c.1) :
    (insertCell c l).find? (fun d => d.1 == c.1) = some c := by
  induction l with
  | nil => simp [insertCell]
  | cons e es ih =>
    simp only [insertCell]
    split
    · simp
    · have he := h e (by simp)
      simp [he, ih fun d hd => h d (by simp [hd])]

theorem find_insertCell_other (c : Host.Cell) (l : List Host.Cell) {b : Nat} (h : b ≠ c.1) :
    (insertCell c l).find? (fun d => d.1 == b) = l.find? (fun d => d.1 == b) := by
  induction l with
  | nil => simp [insertCell, Ne.symm h]
  | cons e es ih =>
    simp only [insertCell]
    split
    · simp [List.find?_cons, Ne.symm h]
    · simp [List.find?_cons, ih]

theorem find_filter_other (l : List Host.Cell) {a b : Nat} (h : b ≠ a) :
    (l.filter fun c => c.1 != a).find? (fun d => d.1 == b) = l.find? (fun d => d.1 == b) := by
  rw [List.find?_filter]
  congr 1
  funext c
  by_cases hc : c.1 = b <;> simp [hc, h]

theorem find_filter_same (l : List Host.Cell) (a : Nat) :
    (l.filter fun c => c.1 != a).find? (fun d => d.1 == a) = none := by
  simp

theorem pairwise_insertCell {c : Host.Cell} {l : List Host.Cell} (hl : l.Pairwise fun c d => c.1 < d.1)
    (h : ∀ d ∈ l, d.1 ≠ c.1) : (insertCell c l).Pairwise fun c d => c.1 < d.1 := by
  induction l with
  | nil => simp [insertCell]
  | cons e es ih =>
    rw [List.pairwise_cons] at hl
    simp only [insertCell]
    split
    · rename_i hlt
      refine List.pairwise_cons.2 ⟨fun d hd => ?_, List.pairwise_cons.2 hl⟩
      rcases List.mem_cons.1 hd with rfl | hd
      · exact hlt
      · exact Nat.lt_trans hlt (hl.1 d hd)
    · rename_i hge
      refine List.pairwise_cons.2 ⟨fun d hd => ?_, ih hl.2 fun d hd => h d (by simp [hd])⟩
      rcases mem_insertCell.1 hd with rfl | hd
      · exact Nat.lt_of_le_of_ne (Nat.le_of_not_lt hge) (h e (by simp))
      · exact hl.1 d hd

/-! ### One byte -/

@[simp] theorem byteAt_setByte_same (m : Memory) (a : Nat) (v : Byte) : (m.setByte a v).byteAt a = v := by
  simp only [Memory.setByte, Memory.byteAt]
  by_cases hv : v = Memory.unlisted
  · rw [if_pos (by simpa using hv), find_filter_same, hv]
  · rw [if_neg (by simpa using hv), find_insertCell_same (a, v) _ (by simp)]

theorem byteAt_setByte_other (m : Memory) {a b : Nat} (v : Byte) (h : b ≠ a) :
    (m.setByte a v).byteAt b = m.byteAt b := by
  simp only [Memory.setByte, Memory.byteAt]
  by_cases hv : v = Memory.unlisted
  · rw [if_pos (by simpa using hv), find_filter_other _ h]
  · rw [if_neg (by simpa using hv), find_insertCell_other (a, v) _ h, find_filter_other _ h]

theorem byteAt_setByte (m : Memory) (a b : Nat) (v : Byte) :
    (m.setByte a v).byteAt b = if b = a then v else m.byteAt b := by
  split
  · rename_i h; rw [h, byteAt_setByte_same]
  · rename_i h; exact byteAt_setByte_other m v h

@[simp] theorem setByte_size (m : Memory) (a : Nat) (v : Byte) : (m.setByte a v).size = m.size := rfl

theorem wf_iff (m : Memory) : m.wf = true ↔
    (m.cells.Pairwise fun c d => c.1 < d.1) ∧ ∀ c ∈ m.cells, c.1 < m.size ∧ c.2 ≠ Memory.unlisted := by
  simp [Memory.wf, List.all_eq_true]

/-- A byte written inside the buffer keeps the canonical form. -/
theorem setByte_wf {m : Memory} {a : Nat} (v : Byte) (h : m.wf = true) (ha : a < m.size) :
    (m.setByte a v).wf = true := by
  obtain ⟨hs, hc⟩ := (wf_iff m).1 h
  have hs' := hs.filter (fun c => c.1 != a)
  rw [wf_iff]
  simp only [Memory.setByte]
  split
  · exact ⟨hs', fun c hm => hc c (List.mem_filter.1 hm).1⟩
  · rename_i hv
    refine ⟨pairwise_insertCell hs' (by simp), fun c hm => ?_⟩
    rcases mem_insertCell.1 hm with rfl | hm
    · exact ⟨ha, by simpa using hv⟩
    · exact hc c (List.mem_filter.1 hm).1

/-- Memory after `new` is in canonical form. -/
theorem wf_new (c : Config) : (State.new c).mem.wf = true := rfl

/-! ### Runs of bytes -/

@[simp] theorem storeBytes_size (m : Memory) (a : Nat) (bs : List Byte) : (m.storeBytes a bs).size = m.size := by
  induction bs generalizing m a with
  | nil => rfl
  | cons b bs ih => simp [Memory.storeBytes, ih]

theorem byteAt_storeBytes_below (m : Memory) {a x : Nat} (bs : List Byte) (h : x < a) :
    (m.storeBytes a bs).byteAt x = m.byteAt x := by
  induction bs generalizing m a with
  | nil => rfl
  | cons b bs ih =>
    rw [Memory.storeBytes, ih _ (by omega), byteAt_setByte_other _ _ (by omega)]

theorem byteAt_storeBytes_above (m : Memory) {a x : Nat} (bs : List Byte) (h : a + bs.length ≤ x) :
    (m.storeBytes a bs).byteAt x = m.byteAt x := by
  induction bs generalizing m a with
  | nil => rfl
  | cons b bs ih =>
    simp only [List.length_cons] at h
    rw [Memory.storeBytes, ih _ (by omega), byteAt_setByte_other _ _ (by omega)]

theorem byteAt_storeBytes_at (m : Memory) (a : Nat) {bs : List Byte} {k : Nat} {b : Byte} (h : bs[k]? = some b) :
    (m.storeBytes a bs).byteAt (a + k) = b := by
  induction bs generalizing m a k with
  | nil => simp at h
  | cons c bs ih =>
    cases k with
    | zero =>
      simp only [List.getElem?_cons_zero, Option.some.injEq] at h
      rw [Memory.storeBytes, byteAt_storeBytes_below _ _ (by omega), Nat.add_zero, byteAt_setByte_same, h]
    | succ k =>
      simp only [List.getElem?_cons_succ] at h
      rw [Memory.storeBytes, show a + (k + 1) = (a + 1) + k by omega, ih _ _ h]

theorem storeBytes_wf {m : Memory} {a : Nat} {bs : List Byte} (h : m.wf = true) (ha : a + bs.length ≤ m.size) :
    (m.storeBytes a bs).wf = true := by
  induction bs generalizing m a with
  | nil => exact h
  | cons b bs ih =>
    simp only [List.length_cons] at ha
    exact ih (setByte_wf b h (by omega)) (by simp only [setByte_size]; omega)

/-- Bytes that stand at `a` are the head of what fetch reads there. -/
theorem bytesFrom_of_bytesAt {m : Memory} {a n : Nat} {bs : List Byte} (h : BytesAt m a bs) (hn : bs.length ≤ n) :
    m.bytesFrom a n = bs ++ m.bytesFrom (a + bs.length) (n - bs.length) := by
  induction bs generalizing a n with
  | nil => rfl
  | cons b bs ih =>
    obtain ⟨hb, hbs⟩ := h
    simp only [List.length_cons] at hb hn
    obtain ⟨n, rfl⟩ : ∃ k, n = k + 1 := ⟨n - 1, by omega⟩
    have h0 : m.byteAt a = b := hbs 0 b rfl
    rw [Memory.bytesFrom, if_pos (by omega), h0, List.cons_append]
    have htl : BytesAt m (a + 1) bs := ⟨by omega, fun k c hk => by
      rw [show a + 1 + k = a + (k + 1) by omega]; exact hbs (k + 1) c hk⟩
    rw [ih htl (by omega), List.length_cons]
    congr 3 <;> omega

/-! ### The four primitives (R53): one lemma each way -/

theorem read16_ok_iff (m : Memory) (a : Nat) (v : Word) :
    m.read16 a = .ok v ↔ a + 2 ≤ m.size ∧ v = wordOf (m.byteAt a) (m.byteAt (a + 1)) := by
  simp only [Memory.read16]
  split <;> simp_all [eq_comm]

theorem read16_error_iff (m : Memory) (a : Nat) (e : Fault) :
    m.read16 a = .error e ↔ m.size < a + 2 ∧ e = .outOfBounds := by
  simp only [Memory.read16]
  split <;> simp_all [eq_comm]

theorem write16_ok_iff (m t : Memory) (a : Nat) (v : Word) :
    m.write16 a v = .ok t ↔ a + 2 ≤ m.size ∧ t = (m.setByte a (lowByte v)).setByte (a + 1) (highByte v) := by
  simp only [Memory.write16]
  split <;> simp_all [eq_comm]

theorem write16_error_iff (m : Memory) (a : Nat) (v : Word) (e : Fault) :
    m.write16 a v = .error e ↔ m.size < a + 2 ∧ e = .outOfBounds := by
  simp only [Memory.write16]
  split <;> simp_all [eq_comm]

/-- What a successful 16-bit write leaves: its capacity, and every byte. -/
theorem write16_spec {m t : Memory} {a : Nat} {v : Word} (h : m.write16 a v = .ok t) :
    t.size = m.size ∧ t.byteAt a = lowByte v ∧ t.byteAt (a + 1) = highByte v ∧
      ∀ x, x ≠ a → x ≠ a + 1 → t.byteAt x = m.byteAt x := by
  obtain ⟨-, rfl⟩ := (write16_ok_iff m t a v).1 h
  refine ⟨rfl, ?_, by simp, fun x h1 h2 => ?_⟩
  · rw [byteAt_setByte_other _ _ (by omega), byteAt_setByte_same]
  · rw [byteAt_setByte_other _ _ h2, byteAt_setByte_other _ _ h1]

theorem write16_wf {m t : Memory} {a : Nat} {v : Word} (h : m.write16 a v = .ok t) (hm : m.wf = true) :
    t.wf = true := by
  obtain ⟨hb, rfl⟩ := (write16_ok_iff m t a v).1 h
  exact setByte_wf _ (setByte_wf _ hm (by omega)) (by simp only [setByte_size]; omega)

theorem write8_wf {m t : Memory} {a : Nat} {v : Word} (h : m.write8 a v = .ok t) (hm : m.wf = true) : t.wf = true := by
  simp only [Memory.write8] at h
  split at h
  · cases h; exact setByte_wf _ hm (by omega)
  · cases h

end Sys2Proof.Machine
end

