-- ==== Sys2Proof/Laws/Decode.lean ====
section
/-! SUPPORT. The laws of the maps and of the decoder's parts: what a lookup answers, and what each format reads. -/

namespace Sys2Proof

theorem Mnemonic.mem_all (op : Mnemonic) : op ∈ Mnemonic.all := by cases op <;> decide
theorem Slot.mem_all (sl : Slot) : sl ∈ Slot.all := by cases sl <;> decide
theorem Mnemonic.all_nodup : Mnemonic.all.Nodup := by decide
theorem Slot.all_nodup : Slot.all.Nodup := by decide

/-! ### Lookup and the selector mux -/

/-- What is looked up has the byte it was looked up by, whatever the map. -/
theorem byteOf_of_lookup {m : Maps} {b : Byte} {op : Mnemonic} (h : m.lookup b = some op) : m.opcodes.byteOf op = b := by
  simpa using List.find?_some h

theorem byteOf_of_resolve {m : Maps} {b : Byte} {sl : Slot} (h : m.resolve b = some sl) : m.selectors.byteOf sl = b := by
  simpa using List.find?_some h

theorem selectsOnly_iff (m : OpcodeMap) (op : Mnemonic) :
    m.selectsOnly op = true ↔ ∀ op', m.byteOf op' = m.byteOf op → op' = op := by
  simp only [OpcodeMap.selectsOnly, List.all_eq_true, Bool.or_eq_true, beq_iff_eq, bne_iff_ne]
  exact ⟨fun h op' he => (h op' op'.mem_all).resolve_right fun hn => hn he,
    fun h op' _ => (Decidable.em _).imp (h op') id⟩

theorem slot_selectsOnly_iff (m : SelectorMap) (sl : Slot) :
    m.selectsOnly sl = true ↔ ∀ sl', m.byteOf sl' = m.byteOf sl → sl' = sl := by
  simp only [SelectorMap.selectsOnly, List.all_eq_true, Bool.or_eq_true, beq_iff_eq, bne_iff_ne]
  exact ⟨fun h sl' he => (h sl' sl'.mem_all).resolve_right fun hn => hn he,
    fun h sl' _ => (Decidable.em _).imp (h sl') id⟩

theorem lookup_byteOf {m : Maps} {op : Mnemonic} (h : m.opcodes.selectsOnly op = true) :
    m.lookup (m.opcodes.byteOf op) = some op := by
  cases hf : m.lookup (m.opcodes.byteOf op) with
  | none => exact absurd (List.find?_eq_none.1 hf op op.mem_all) (by simp)
  | some op' => rw [(selectsOnly_iff _ _).1 h op' (byteOf_of_lookup hf)]

theorem resolve_byteOf {m : Maps} {sl : Slot} (h : m.selectors.selectsOnly sl = true) :
    m.resolve (m.selectors.byteOf sl) = some sl := by
  cases hf : m.resolve (m.selectors.byteOf sl) with
  | none => exact absurd (List.find?_eq_none.1 hf sl sl.mem_all) (by simp)
  | some sl' => rw [(slot_selectsOnly_iff _ _).1 h sl' (byteOf_of_resolve hf)]

theorem lookup_none_iff (m : Maps) (b : Byte) : m.lookup b = none ↔ ∀ op, m.opcodes.byteOf op ≠ b := by
  simp only [Maps.lookup, List.find?_eq_none, beq_iff_eq]
  exact ⟨fun h op => h op op.mem_all, fun h op _ => h op⟩

theorem resolve_none_iff (m : Maps) (b : Byte) : m.resolve b = none ↔ ∀ sl, m.selectors.byteOf sl ≠ b := by
  simp only [Maps.resolve, List.find?_eq_none, beq_iff_eq]
  exact ⟨fun h sl => h sl sl.mem_all, fun h sl _ => h sl⟩

/-- A map is injective exactly when each mnemonic's byte selects only it. -/
theorem opcodes_injective_iff (m : OpcodeMap) : m.injective = true ↔ ∀ op, m.selectsOnly op = true := by
  simp only [OpcodeMap.injective, decide_eq_true_eq, selectsOnly_iff]
  rw [List.nodup_map_iff_inj_on Mnemonic.all_nodup]
  exact ⟨fun h op op' he => h op' op'.mem_all op op.mem_all he, fun h op _ op' _ he => h op' op he⟩

theorem selectors_injective_iff (m : SelectorMap) : m.injective = true ↔ ∀ sl, m.selectsOnly sl = true := by
  simp only [SelectorMap.injective, decide_eq_true_eq, slot_selectsOnly_iff]
  rw [List.nodup_map_iff_inj_on Slot.all_nodup]
  exact ⟨fun h sl sl' he => h sl' sl'.mem_all sl sl.mem_all he, fun h sl _ sl' _ he => h sl' sl he⟩

theorem default_maps_wf : Maps.default.wf = true := by decide

/-! ### Reading one operand -/

theorem withSlot_byteOf {m : Maps} {sl : Slot} (h : m.selectors.selectsOnly sl = true) (rest : List Byte)
    (k : Slot → List Byte → Decoded) : withSlot m (m.selectors.byteOf sl :: rest) k = k sl rest := by
  simp only [withSlot, resolve_byteOf h]

theorem withWord_bytes (v : Word) (rest : List Byte) (k : Word → List Byte → Decoded) :
    withWord (lowByte v :: highByte v :: rest) k = k v rest := by
  simp only [withWord, Machine.wordOf_low_high]

/-- All a REGISTER operand can do: end the bytes, name no slot, or go on with the slot. -/
theorem withSlot_ok {m : Maps} {bs : List Byte} {k : Slot → List Byte → Decoded} {r : Instr × List Byte}
    (h : withSlot m bs k = .ok r) : ∃ sl rest, bs = m.selectors.byteOf sl :: rest ∧ k sl rest = .ok r := by
  unfold withSlot at h
  split at h
  · cases h
  · rename_i b rest
    split at h
    · cases h
    · rename_i sl hs
      exact ⟨sl, rest, by rw [byteOf_of_resolve hs], h⟩

/-- All a 16-bit operand can do: end the bytes or go on with the value. -/
theorem withWord_ok {bs : List Byte} {k : Word → List Byte → Decoded} {r : Instr × List Byte}
    (h : withWord bs k = .ok r) : ∃ v rest, bs = lowByte v :: highByte v :: rest ∧ k v rest = .ok r := by
  unfold withWord at h
  split at h
  · rename_i lo hi rest
    exact ⟨wordOf lo hi, rest, by simp, h⟩
  · cases h

/-- The operands of each mnemonic read back from its encoding, when its selector bytes select only its slots. -/
theorem decodeOperands_encode {m : Maps} {i : Instr} (h : i.slots.all m.selectors.selectsOnly = true) (rest : List Byte) :
    decodeOperands m i.mnemonic ((encode m i).tail ++ rest) = .ok (i, rest) := by
  cases i <;>
    simp_all [Instr.slots, Instr.mnemonic, encode, decodeOperands, formatN, formatR, formatRR, formatA, formatLR,
      formatRA, formatLA, withSlot_byteOf, withWord_bytes]

/-- Operands that decode were written as the encoder writes them, and the instruction has the mnemonic. -/
theorem decodeOperands_ok {m : Maps} {op : Mnemonic} {bs rest : List Byte} {i : Instr}
    (h : decodeOperands m op bs = .ok (i, rest)) : i.mnemonic = op ∧ bs = (encode m i).tail ++ rest := by
  cases op <;> simp only [decodeOperands, formatN, formatR, formatRR, formatA, formatLR, formatRA, formatLA] at h
  case halt => cases h; exact ⟨rfl, rfl⟩
  case jump | jumpeq | jumplt | jumpgt | jumplte | jumpgte =>
    obtain ⟨v, r, e, h'⟩ := withWord_ok h
    cases h'; exact ⟨rfl, e⟩
  case increment | decrement | not =>
    obtain ⟨a, r, e, h'⟩ := withSlot_ok h
    cases h'; exact ⟨rfl, e⟩
  case movlm =>
    obtain ⟨v, r, e, h'⟩ := withWord_ok h
    obtain ⟨w, r', e', h''⟩ := withWord_ok h'
    cases h''; subst e'; exact ⟨rfl, e⟩
  case movlr | movemr | movlir | moveimr =>
    obtain ⟨v, r, e, h'⟩ := withWord_ok h
    obtain ⟨w, r', e', h''⟩ := withSlot_ok h'
    cases h''; subst e'; exact ⟨rfl, e⟩
  case movrm | moveirm | shiftleft | shiftright =>
    obtain ⟨v, r, e, h'⟩ := withSlot_ok h
    obtain ⟨w, r', e', h''⟩ := withWord_ok h'
    cases h''; subst e'; exact ⟨rfl, e⟩
  all_goals
    obtain ⟨v, r, e, h'⟩ := withSlot_ok h
    obtain ⟨w, r', e', h''⟩ := withSlot_ok h'
    cases h''; subst e'; exact ⟨rfl, e⟩

theorem encode_eq_cons (m : Maps) (i : Instr) : encode m i = m.opcodes.byteOf i.mnemonic :: (encode m i).tail := by
  cases i <;> rfl

/-- A decoded instruction begins with its opcode byte, and its operands come from the bytes after it. -/
theorem decode_ok {m : Maps} {bs : List Byte} {r : Instr × List Byte} (h : decode m bs = .ok r) :
    ∃ op rest, bs = m.opcodes.byteOf op :: rest ∧ m.lookup (m.opcodes.byteOf op) = some op ∧
      decodeOperands m op rest = .ok r := by
  unfold decode at h
  split at h
  · cases h
  · rename_i b rest
    split at h
    · cases h
    · rename_i op hop
      exact ⟨op, rest, by rw [byteOf_of_lookup hop], by rw [byteOf_of_lookup hop, hop], h⟩

end Sys2Proof
end

