-- ==== Sys2Proof/Laws/State.lean ====
section
/-! SUPPORT. The small lemmas of State: what each register operation does to each field, so that no proof unfolds a
record update. -/

namespace Sys2Proof.Machine

/-! ### Reading after writing a slot (R24: the ten slots are distinct storage) -/

@[simp] theorem read_write_same (s : State) (sl : Slot) (v : Word) : (s.write sl v).read sl = v := by
  cases sl <;> rfl

theorem read_write_other (s : State) {sl q : Slot} (v : Word) (h : q ≠ sl) : (s.write sl v).read q = s.read q := by
  cases sl <;> cases q <;> first | rfl | exact absurd rfl h

theorem write_pc (s : State) (sl : Slot) (v : Word) : (s.write sl v).pc = if sl = .pc then v else s.pc := by
  cases sl <;> rfl

@[simp] theorem write_mem (s : State) (sl : Slot) (v : Word) : (s.write sl v).mem = s.mem := by cases sl <;> rfl
@[simp] theorem write_faulted (s : State) (sl : Slot) (v : Word) : (s.write sl v).faulted = s.faulted := by
  cases sl <;> rfl
@[simp] theorem write_started (s : State) (sl : Slot) (v : Word) : (s.write sl v).started = s.started := by
  cases sl <;> rfl
@[simp] theorem write_maps (s : State) (sl : Slot) (v : Word) : (s.write sl v).maps = s.maps := by cases sl <;> rfl

@[simp] theorem read_pc (s : State) : s.read .pc = s.pc := rfl
@[simp] theorem read_flags (s : State) : s.read .flags = s.flags := rfl

/-! ### Fields no register reads: a slot's value does not depend on them -/

@[simp] theorem read_with_mem (s : State) (m : Memory) (sl : Slot) : State.read { s with mem := m } sl = s.read sl := by
  cases sl <;> rfl
@[simp] theorem read_with_faulted (s : State) (b : Bool) (sl : Slot) :
    State.read { s with faulted := b } sl = s.read sl := by cases sl <;> rfl
@[simp] theorem read_with_started (s : State) (b : Bool) (sl : Slot) :
    State.read { s with started := b } sl = s.read sl := by cases sl <;> rfl
@[simp] theorem read_with_maps (s : State) (m : Maps) (sl : Slot) : State.read { s with maps := m } sl = s.read sl := by
  cases sl <;> rfl

theorem read_with_pc (s : State) (v : Word) {sl : Slot} (h : sl ≠ .pc) : State.read { s with pc := v } sl = s.read sl := by
  cases sl <;> first | rfl | exact absurd rfl h

theorem read_with_flags (s : State) (v : Word) {sl : Slot} (h : sl ≠ .flags) :
    State.read { s with flags := v } sl = s.read sl := by
  cases sl <;> first | rfl | exact absurd rfl h

/-! ### The PC update -/

@[simp] theorem advance_pc (s : State) (op : Mnemonic) : (s.advance op).pc = s.pc + BitVec.ofNat 16 op.width := rfl
@[simp] theorem advance_flags (s : State) (op : Mnemonic) : (s.advance op).flags = s.flags := rfl
@[simp] theorem advance_mem (s : State) (op : Mnemonic) : (s.advance op).mem = s.mem := rfl
@[simp] theorem advance_faulted (s : State) (op : Mnemonic) : (s.advance op).faulted = s.faulted := rfl
@[simp] theorem advance_started (s : State) (op : Mnemonic) : (s.advance op).started = s.started := rfl
@[simp] theorem advance_maps (s : State) (op : Mnemonic) : (s.advance op).maps = s.maps := rfl
theorem read_advance (s : State) (op : Mnemonic) {sl : Slot} (h : sl ≠ .pc) : (s.advance op).read sl = s.read sl :=
  read_with_pc s _ h

@[simp] theorem jumpTo_pc (s : State) (addr : Word) : (s.jumpTo addr).pc = addr := rfl
@[simp] theorem jumpTo_flags (s : State) (addr : Word) : (s.jumpTo addr).flags = s.flags := rfl
@[simp] theorem jumpTo_mem (s : State) (addr : Word) : (s.jumpTo addr).mem = s.mem := rfl
@[simp] theorem jumpTo_faulted (s : State) (addr : Word) : (s.jumpTo addr).faulted = s.faulted := rfl
@[simp] theorem jumpTo_started (s : State) (addr : Word) : (s.jumpTo addr).started = s.started := rfl
@[simp] theorem jumpTo_maps (s : State) (addr : Word) : (s.jumpTo addr).maps = s.maps := rfl
theorem read_jumpTo (s : State) (addr : Word) {sl : Slot} (h : sl ≠ .pc) : (s.jumpTo addr).read sl = s.read sl :=
  read_with_pc s _ h

/-- Every instruction is between 1 and 5 bytes long (R80). -/
theorem width_bounds (op : Mnemonic) : 1 ≤ op.width ∧ op.width ≤ maxWidth := by cases op <;> decide

/-- The PC update as arithmetic (R93). -/
theorem advance_toNat (s : State) (op : Mnemonic) : (s.advance op).pc.toNat = (s.pc.toNat + op.width) % 65536 := by
  have := (width_bounds op).2
  simp only [maxWidth] at this
  simp [BitVec.toNat_add, Nat.mod_eq_of_lt (show op.width < 65536 by omega)]

/-! ### Errors and `init` -/

@[simp] theorem markFaulted_faulted (s : State) : s.markFaulted.faulted = true := rfl
@[simp] theorem markFaulted_started (s : State) : s.markFaulted.started = s.started := rfl
@[simp] theorem markFaulted_mem (s : State) : s.markFaulted.mem = s.mem := rfl
@[simp] theorem markFaulted_maps (s : State) : s.markFaulted.maps = s.maps := rfl
@[simp] theorem read_markFaulted (s : State) (sl : Slot) : s.markFaulted.read sl = s.read sl := read_with_faulted s _ sl

@[simp] theorem init_mem (s : State) : s.init.mem = s.mem := rfl
@[simp] theorem init_maps (s : State) : s.init.maps = s.maps := rfl
@[simp] theorem init_faulted (s : State) : s.init.faulted = false := rfl
@[simp] theorem init_started (s : State) : s.init.started = false := rfl
@[simp] theorem read_init (s : State) (sl : Slot) : s.init.read sl = 0 := by cases sl <;> rfl
@[simp] theorem read_new (c : Config) (sl : Slot) : (State.new c).read sl = 0 := by cases sl <;> rfl

end Sys2Proof.Machine
end

