-- ==== Sys2Proof/Laws/Exec.lean ====
section
/-! SUPPORT. What the shared shapes of execute can do, and what any instruction can do: provers cite these instead of
unfolding the meanings. -/

namespace Sys2Proof.Machine

/-- A write of a slot with the PC update: R92 to R94 with the frame. -/
theorem putAndAdvance_wrote (s : State) (op : Mnemonic) (dst : Slot) (v : Word) :
    ∃ t, s.putAndAdvance op dst v = .next t ∧ WroteSlot dst v.toNat op.width s t := by
  refine ⟨_, rfl, fun h => ?_, ?_, fun sl h1 h2 => ?_, fun a => ?_, ?_⟩
  · rw [read_advance _ _ h, read_write_same]
  · rw [advance_toNat, write_pc]
    split <;> rfl
  · rw [read_advance _ _ h2, read_write_other _ _ h1]
  · simp
  · exact ⟨by simp, by simp, by simp, by simp⟩

/-- A load, in bounds: the word read is written to the slot. -/
theorem loadAndAdvance_wrote (s : State) (op : Mnemonic) (dst : Slot) {a : Nat} (h : a + 2 ≤ s.mem.size) :
    ∃ t, s.loadAndAdvance op dst a = .next t ∧ WroteSlot dst (wordAt s.mem a) op.width s t := by
  have hr : s.mem.read16 a = .ok (wordOf (s.mem.byteAt a) (s.mem.byteAt (a + 1))) := (read16_ok_iff _ _ _).2 ⟨h, rfl⟩
  simp only [State.loadAndAdvance, hr]
  simpa [wordAt, wordOf_toNat] using
    putAndAdvance_wrote s op dst (wordOf (s.mem.byteAt a) (s.mem.byteAt (a + 1)))

theorem loadAndAdvance_fault (s : State) (op : Mnemonic) (dst : Slot) {a : Nat} (h : ¬ a + 2 ≤ s.mem.size) :
    s.loadAndAdvance op dst a = .fault .outOfBounds := by
  simp [State.loadAndAdvance, Memory.read16, h, raise]

/-- A store, in bounds: the two bytes and PC change. -/
theorem storeAndAdvance_stored (s : State) (op : Mnemonic) {a : Nat} (v : Word) (h : a + 2 ≤ s.mem.size) :
    ∃ t, s.storeAndAdvance op a v = .next t ∧ StoredWord a v op.width s t := by
  have hw := (write16_ok_iff s.mem _ a v).2 ⟨h, rfl⟩
  obtain ⟨hsz, hlo, hhi, hot⟩ := write16_spec hw
  simp only [State.storeAndAdvance, hw]
  refine ⟨_, rfl, ?_, ?_, hot, ?_, fun sl hs => ?_, ?_⟩
  · rw [advance_mem, hlo, lowByte_toNat]
  · rw [advance_mem, hhi, highByte_toNat]
  · exact advance_toNat _ op
  · rw [read_advance _ _ hs, read_with_mem]
  · exact ⟨rfl, rfl, hsz, rfl⟩

theorem storeAndAdvance_fault (s : State) (op : Mnemonic) {a : Nat} (v : Word) (h : ¬ a + 2 ≤ s.mem.size) :
    s.storeAndAdvance op a v = .fault .outOfBounds := by
  simp [State.storeAndAdvance, Memory.write16, h, raise]

/-- A load answers one of two things. -/
theorem loadAndAdvance_next {s t : State} {op : Mnemonic} {dst : Slot} {a : Nat} (h : s.loadAndAdvance op dst a = .next t) :
    ∃ v, s.mem.read16 a = .ok v ∧ t = (s.write dst v).advance op := by
  unfold State.loadAndAdvance at h
  split at h
  · cases h
  · rename_i v hv
    cases h
    exact ⟨v, hv, rfl⟩

theorem storeAndAdvance_next {s t : State} {op : Mnemonic} {a : Nat} {v : Word} (h : s.storeAndAdvance op a v = .next t) :
    ∃ m, s.mem.write16 a v = .ok m ∧ t = State.advance { s with mem := m } op := by
  unfold State.storeAndAdvance at h
  split at h
  · cases h
  · rename_i m hm
    cases h
    exact ⟨m, hm, rfl⟩

/-- Everything an instruction that completes can do: HALT; a write of its destination (FLAGS for COMPARE); a store of its
word at its target; or a jump, taken or not. -/
theorem exec_next_cases {i : Instr} {s t : State} (h : exec i s = .next t) :
    (i = .halt ∧ t = { s with flags := s.flags ||| maskHlt }) ∨
    (∃ a b, i = .compare a b ∧ t = (s.write .flags (compareFlags (s.read a) (s.read b))).advance .compare) ∨
    (∃ dst v, destination i = some dst ∧ storeOf s i = none ∧ jumpTarget i = none ∧
      t = (s.write dst v).advance i.mnemonic) ∨
    (∃ a v m, destination i = none ∧ storeOf s i = some (a, v) ∧ jumpTarget i = none ∧
      s.mem.write16 a v = .ok m ∧ t = State.advance { s with mem := m } i.mnemonic) ∨
    (∃ addr, destination i = none ∧ storeOf s i = none ∧ jumpTarget i = some addr ∧ i.mnemonic.width = 3 ∧
      (t = s.jumpTo addr ∨ t = s.advance i.mnemonic)) := by
  have jump : ∀ {op : Mnemonic} {mask addr : Word} {t : State}, t = s.jumpIf op mask addr →
      t = s.jumpTo addr ∨ t = s.advance op := by
    intro op mask addr t ht
    subst ht
    unfold State.jumpIf
    split <;> simp
  cases i with
  | halt => cases h; exact .inl ⟨rfl, rfl⟩
  | compare a b => cases h; exact .inr (.inl ⟨a, b, rfl, rfl⟩)
  | jump addr => cases h; exact .inr (.inr (.inr (.inr ⟨addr, rfl, rfl, rfl, rfl, .inl rfl⟩)))
  | jumpeq addr | jumplt addr | jumpgt addr | jumplte addr | jumpgte addr =>
    cases h; exact .inr (.inr (.inr (.inr ⟨addr, rfl, rfl, rfl, rfl, jump rfl⟩)))
  | movlr _ _ | movrr _ _ | add _ _ | subtract _ _ | multiply _ _ | increment _ | decrement _ | and _ _ | or _ _
  | xor _ _ | not _ | shiftleft _ _ | shiftright _ _ =>
    cases h; exact .inr (.inr (.inl ⟨_, _, rfl, rfl, rfl, rfl⟩))
  | divide a b =>
    simp only [exec, execDivide] at h
    split at h
    · cases h
    · cases h; exact .inr (.inr (.inl ⟨_, _, rfl, rfl, rfl, rfl⟩))
  | movemr _ _ | moveirr _ _ =>
    obtain ⟨v, -, rfl⟩ := loadAndAdvance_next h
    exact .inr (.inr (.inl ⟨_, v, rfl, rfl, rfl, rfl⟩))
  | moveimr addr a =>
    simp only [exec, execMoveimr] at h
    split at h
    · cases h
    · obtain ⟨v, -, rfl⟩ := loadAndAdvance_next h
      exact .inr (.inr (.inl ⟨_, v, rfl, rfl, rfl, rfl⟩))
  | movlm _ _ | movrm _ _ | movlir _ _ =>
    obtain ⟨m, hm, rfl⟩ := storeAndAdvance_next h
    exact .inr (.inr (.inr (.inl ⟨_, _, m, rfl, rfl, rfl, hm, rfl⟩)))
  | moveirm a addr =>
    simp only [exec, execMoveirm] at h
    split at h
    · cases h
    · rename_i v hv
      obtain ⟨-, rfl⟩ := (read16_ok_iff _ _ _).1 hv
      obtain ⟨m, hm, rfl⟩ := storeAndAdvance_next h
      exact .inr (.inr (.inr (.inl ⟨_, _, m, rfl, rfl, rfl, hm, rfl⟩)))

/-- No instruction changes the markers, the capacity or the maps. -/
theorem exec_sameInstance {i : Instr} {s t : State} (h : exec i s = .next t) : SameInstance s t := by
  rcases exec_next_cases h with ⟨-, rfl⟩ | ⟨a, b, -, rfl⟩ | ⟨dst, v, -, -, -, rfl⟩ | ⟨a, v, m, -, -, -, hm, rfl⟩ |
    ⟨addr, -, -, -, -, rfl | rfl⟩
  · exact ⟨rfl, rfl, rfl, rfl⟩
  · exact ⟨by simp, by simp, by simp, by simp⟩
  · exact ⟨by simp, by simp, by simp, by simp⟩
  · exact ⟨rfl, rfl, (write16_spec hm).1, rfl⟩
  · exact ⟨rfl, rfl, rfl, rfl⟩
  · exact ⟨rfl, rfl, rfl, rfl⟩

/-- An instruction keeps memory canonical. -/
theorem exec_mem_wf {i : Instr} {s t : State} (h : exec i s = .next t) (hm : s.mem.wf = true) : t.mem.wf = true := by
  rcases exec_next_cases h with ⟨-, rfl⟩ | ⟨a, b, -, rfl⟩ | ⟨dst, v, -, -, -, rfl⟩ | ⟨a, v, m, -, -, -, hw, rfl⟩ |
    ⟨addr, -, -, -, -, rfl | rfl⟩
  · exact hm
  · simpa using hm
  · simpa using hm
  · exact write16_wf hw hm
  · exact hm
  · exact hm

/-- All a step that answers a state can do: nothing, in Halted, or one instruction from the state with `started` set. -/
theorem step_next_cases {s t : State} (h : step s = .next t) :
    s.faulted = false ∧ ((s.hlt = true ∧ t = s) ∨
      (s.hlt = false ∧ ∃ i, s.fetch = .ok i ∧ exec i { s with started := true } = .next t)) := by
  unfold step at h
  split at h
  · cases h
  · rename_i hf
    refine ⟨by simpa using hf, ?_⟩
    split at h
    · rename_i hh
      cases h
      exact .inl ⟨hh, rfl⟩
    · rename_i hh
      split at h
      · cases h
      · rename_i i hi
        exact .inr ⟨by simpa using hh, i, hi, h⟩

/-! ### Runs -/

@[simp] theorem runSteps_zero (s : State) : runSteps 0 s = .next s := rfl

theorem core_run_succ_next (M : Host.Core) (n : Nat) {s t : M.State} (h : M.step s = .next t) :
    M.run (n + 1) s = M.run n t := by
  simp only [Host.Core.run, h]

theorem core_run_succ_fault (M : Host.Core) (n : Nat) {s : M.State} {e : M.Fault} (h : M.step s = .fault e) :
    M.run (n + 1) s = .fault e := by
  simp only [Host.Core.run, h]

/-- One step, then the rest of the run. -/
theorem runSteps_succ_next {s t : State} (n : Nat) (h : step s = .next t) : runSteps (n + 1) s = runSteps n t :=
  core_run_succ_next core n h

theorem runSteps_succ_fault {s : State} {e : Fault} (n : Nat) (h : step s = .fault e) :
    runSteps (n + 1) s = .fault e :=
  core_run_succ_fault core n h

/-! ### Single bits of FLAGS -/

/-- The test of a one-bit mask is that bit. -/
theorem anySet_twoPow (f : Word) {k : Nat} (hk : k < 16) : anySet f (BitVec.twoPow 16 k) = f.getLsbD k := by
  unfold anySet
  rw [BitVec.and_twoPow]
  cases h : f.getLsbD k
  · simp
  · have hne : BitVec.twoPow 16 k ≠ 0#16 := fun h0 => by
      have h1 := congrArg (fun v => BitVec.getLsbD v k) h0
      simp only [BitVec.getLsbD_twoPow, BitVec.getLsbD_zero] at h1
      simp [hk] at h1
    simp [hne]

/-- HLT is bit 5 of FLAGS (R28). -/
theorem hlt_eq_bit (s : State) : s.hlt = s.flags.getLsbD 5 :=
  anySet_twoPow s.flags (show 5 < 16 by decide)

end Sys2Proof.Machine
end

