-- ==== Sys2Proof/Laws/PerInstr.lean ====
section
/-! SUPPORT. Statements about every instruction as syntax, one lemma per constructor. EncodedLength: the encoder writes
as many bytes as the operand table gives the mnemonic (spec 30_encoding.md R85), under every pair of maps. -/

namespace Sys2Proof

def Laws.EncodedLength.Statement (i : Instr) : Prop :=
  ∀ m : Maps, (encode m i).length = i.mnemonic.width

theorem Laws.EncodedLength.halt : Laws.EncodedLength.Statement (.halt) := fun _ => rfl
theorem Laws.EncodedLength.compare (regA regB : Slot) : Laws.EncodedLength.Statement (.compare regA regB) := fun _ => rfl
theorem Laws.EncodedLength.jump (addr : Word) : Laws.EncodedLength.Statement (.jump addr) := fun _ => rfl
theorem Laws.EncodedLength.jumpeq (addr : Word) : Laws.EncodedLength.Statement (.jumpeq addr) := fun _ => rfl
theorem Laws.EncodedLength.jumplt (addr : Word) : Laws.EncodedLength.Statement (.jumplt addr) := fun _ => rfl
theorem Laws.EncodedLength.jumpgt (addr : Word) : Laws.EncodedLength.Statement (.jumpgt addr) := fun _ => rfl
theorem Laws.EncodedLength.jumplte (addr : Word) : Laws.EncodedLength.Statement (.jumplte addr) := fun _ => rfl
theorem Laws.EncodedLength.jumpgte (addr : Word) : Laws.EncodedLength.Statement (.jumpgte addr) := fun _ => rfl
theorem Laws.EncodedLength.movlr (literal : Word) (regA : Slot) : Laws.EncodedLength.Statement (.movlr literal regA) := fun _ => rfl
theorem Laws.EncodedLength.movrr (regA regB : Slot) : Laws.EncodedLength.Statement (.movrr regA regB) := fun _ => rfl
theorem Laws.EncodedLength.movlm (literal addr : Word) : Laws.EncodedLength.Statement (.movlm literal addr) := fun _ => rfl
theorem Laws.EncodedLength.movrm (regA : Slot) (addr : Word) : Laws.EncodedLength.Statement (.movrm regA addr) := fun _ => rfl
theorem Laws.EncodedLength.movemr (addr : Word) (regA : Slot) : Laws.EncodedLength.Statement (.movemr addr regA) := fun _ => rfl
theorem Laws.EncodedLength.movlir (literal : Word) (regA : Slot) : Laws.EncodedLength.Statement (.movlir literal regA) := fun _ => rfl
theorem Laws.EncodedLength.moveirr (regA regB : Slot) : Laws.EncodedLength.Statement (.moveirr regA regB) := fun _ => rfl
theorem Laws.EncodedLength.moveirm (regA : Slot) (addr : Word) : Laws.EncodedLength.Statement (.moveirm regA addr) := fun _ => rfl
theorem Laws.EncodedLength.moveimr (addr : Word) (regA : Slot) : Laws.EncodedLength.Statement (.moveimr addr regA) := fun _ => rfl
theorem Laws.EncodedLength.add (regA regB : Slot) : Laws.EncodedLength.Statement (.add regA regB) := fun _ => rfl
theorem Laws.EncodedLength.subtract (regA regB : Slot) : Laws.EncodedLength.Statement (.subtract regA regB) := fun _ => rfl
theorem Laws.EncodedLength.multiply (regA regB : Slot) : Laws.EncodedLength.Statement (.multiply regA regB) := fun _ => rfl
theorem Laws.EncodedLength.divide (regA regB : Slot) : Laws.EncodedLength.Statement (.divide regA regB) := fun _ => rfl
theorem Laws.EncodedLength.increment (regA : Slot) : Laws.EncodedLength.Statement (.increment regA) := fun _ => rfl
theorem Laws.EncodedLength.decrement (regA : Slot) : Laws.EncodedLength.Statement (.decrement regA) := fun _ => rfl
theorem Laws.EncodedLength.and (regA regB : Slot) : Laws.EncodedLength.Statement (.and regA regB) := fun _ => rfl
theorem Laws.EncodedLength.or (regA regB : Slot) : Laws.EncodedLength.Statement (.or regA regB) := fun _ => rfl
theorem Laws.EncodedLength.xor (regA regB : Slot) : Laws.EncodedLength.Statement (.xor regA regB) := fun _ => rfl
theorem Laws.EncodedLength.not (regA : Slot) : Laws.EncodedLength.Statement (.not regA) := fun _ => rfl
theorem Laws.EncodedLength.shiftleft (regA : Slot) (literal : Word) : Laws.EncodedLength.Statement (.shiftleft regA literal) := fun _ => rfl
theorem Laws.EncodedLength.shiftright (regA : Slot) (literal : Word) : Laws.EncodedLength.Statement (.shiftright regA literal) := fun _ => rfl

theorem encode_length (m : Maps) (i : Instr) : (encode m i).length = i.mnemonic.width := by
  cases i <;> rfl

end Sys2Proof
end

