-- ==== Sys2Proof/Tests/Slice0.lean ====
section
/-! SUPPORT. The model's own tests. Expected values come from spec/95_test_vectors.md (V, W) and from the examples of the
instruction rules (R), never from the model. Each runs one step of a small state. Below them, one witness for the
hypotheses of each statement that has some. -/

namespace Sys2Proof.Tests

open Sys2Proof.Machine

/-- The state after `new`, with a program counter and the bytes at it. -/
def codeAt (pc : Word) (bytes : List Byte) : State :=
  { State.reset with pc := pc, mem := State.reset.mem.storeBytes pc.toNat bytes }

/-- The same with R0 and R1 set. -/
def withR01 (r0 r1 : Word) (bytes : List Byte) : State :=
  { codeAt 0 bytes with regs := { State.reset.regs with r0 := r0, r1 := r1 } }

/-- The same with R3 and two more stretches of memory. -/
def withR3 (r3 : Word) (bytes : List Byte) (a : Nat) (data : List Byte) : State :=
  let s := codeAt 0 bytes
  { s with regs := { s.regs with r3 := r3 }, mem := s.mem.storeBytes a data }

/-- `new(size)` with bytes at 0. -/
def sized (size : Nat) (bytes : List Byte) : State :=
  let s := State.new { memorySize := size, maps := Maps.default }
  { s with mem := s.mem.storeBytes 0 bytes }

/-- The step answers a state of which `p` holds. -/
def stepsTo (s : State) (p : State → Bool) : Bool :=
  match step s with
  | .next t => p t
  | _ => false

/-- The step raises the error. -/
def raises (s : State) (e : Fault) : Bool :=
  match step s with
  | .fault e' => e' == e
  | _ => false

/-- The bytes decode, all of them, to the instruction. -/
def decodesTo (bs : List Byte) (i : Instr) : Bool :=
  match decode Maps.default bs with
  | .ok (j, rest) => j == i && rest.isEmpty
  | .error _ => false

/-! ### Well-formedness: an ill-formed term for each check (R7) -/

def clashingOpcodes : Maps := { Maps.default with opcodes := { OpcodeMap.default with shiftright := 0x1B } }
def clashingSelectors : Maps := { Maps.default with selectors := { SelectorMap.default with flags := 0x08 } }

theorem test_default_maps_are_wf : Maps.default.wf = true := by decide
theorem test_clashing_opcodes_refused : clashingOpcodes.opcodes.injective = false := by decide
theorem test_clashing_selectors_refused : clashingSelectors.selectors.injective = false := by decide
theorem test_clashing_opcode_maps_refused : clashingOpcodes.wf = false := by decide
theorem test_clashing_selector_maps_refused : clashingSelectors.wf = false := by decide
theorem test_instr_with_shared_opcode_refused : (Instr.shiftright .r0 1).wf clashingOpcodes = false := by decide
theorem test_instr_with_shared_selector_refused : (Instr.movrr .r0 .flags).wf clashingSelectors = false := by decide
theorem test_instr_apart_from_the_clash_wf : (Instr.add .r0 .r1).wf clashingOpcodes = true := by decide

/-! ### Every constructor's decoding, by the bytes of R82 and R84 and the rules' examples -/

theorem test_decode_halt : decodesTo [0x00] (.halt) = true := by decide
theorem test_decode_compare : decodesTo [0x01, 0x09, 0x08] (.compare .flags .pc) = true := by decide
theorem test_decode_jump : decodesTo [0x02, 0x10, 0x00] (.jump 0x0010) = true := by decide
theorem test_decode_jumpeq : decodesTo [0x03, 0x34, 0x12] (.jumpeq 0x1234) = true := by decide
theorem test_decode_jumplt : decodesTo [0x04, 0x00, 0x01] (.jumplt 0x0100) = true := by decide
theorem test_decode_jumpgt : decodesTo [0x05, 0x0C, 0x00] (.jumpgt 0x000C) = true := by decide
theorem test_decode_jumplte : decodesTo [0x06, 0xFE, 0xFF] (.jumplte 0xFFFE) = true := by decide
theorem test_decode_jumpgte : decodesTo [0x07, 0x40, 0x00] (.jumpgte 0x0040) = true := by decide
theorem test_decode_movlr : decodesTo [0x08, 0xCD, 0xAB, 0x02] (.movlr 0xABCD .r2) = true := by decide
theorem test_decode_movrr : decodesTo [0x09, 0x00, 0x07] (.movrr .r0 .r7) = true := by decide
theorem test_decode_movlm : decodesTo [0x0A, 0x34, 0x12, 0x00, 0x01] (.movlm 0x1234 0x0100) = true := by decide
theorem test_decode_movrm : decodesTo [0x0B, 0x05, 0x02, 0x01] (.movrm .r5 0x0102) = true := by decide
theorem test_decode_movemr : decodesTo [0x0C, 0x00, 0x01, 0x02] (.movemr 0x0100 .r2) = true := by decide
theorem test_decode_movlir : decodesTo [0x0D, 0xEF, 0xBE, 0x03] (.movlir 0xBEEF .r3) = true := by decide
theorem test_decode_moveirr : decodesTo [0x0E, 0x03, 0x04] (.moveirr .r3 .r4) = true := by decide
theorem test_decode_moveirm : decodesTo [0x0F, 0x03, 0x04, 0x01] (.moveirm .r3 0x0104) = true := by decide
theorem test_decode_moveimr : decodesTo [0x10, 0x00, 0x02, 0x05] (.moveimr 0x0200 .r5) = true := by decide
theorem test_decode_add : decodesTo [0x11, 0x00, 0x08] (.add .r0 .pc) = true := by decide
theorem test_decode_subtract : decodesTo [0x12, 0x00, 0x01] (.subtract .r0 .r1) = true := by decide
theorem test_decode_multiply : decodesTo [0x13, 0x06, 0x07] (.multiply .r6 .r7) = true := by decide
theorem test_decode_divide : decodesTo [0x14, 0x02, 0x03] (.divide .r2 .r3) = true := by decide
theorem test_decode_increment : decodesTo [0x15, 0x04] (.increment .r4) = true := by decide
theorem test_decode_decrement : decodesTo [0x16, 0x00] (.decrement .r0) = true := by decide
theorem test_decode_and : decodesTo [0x17, 0x00, 0x01] (.and .r0 .r1) = true := by decide
theorem test_decode_or : decodesTo [0x18, 0x00, 0x09] (.or .r0 .flags) = true := by decide
theorem test_decode_xor : decodesTo [0x19, 0x01, 0x00] (.xor .r1 .r0) = true := by decide
theorem test_decode_not : decodesTo [0x1A, 0x09] (.not .flags) = true := by decide
theorem test_decode_shiftleft : decodesTo [0x1B, 0x02, 0x04, 0x00] (.shiftleft .r2 4) = true := by decide
theorem test_decode_shiftright : decodesTo [0x1C, 0x02, 0x00, 0x01] (.shiftright .r2 0x0100) = true := by decide

/-! ### Decode errors (V1, V3 to V9) -/

theorem test_V1_first_unmapped_opcode : raises (codeAt 0 [0x1D]) (.unimplementedInstruction 0x1D) = true := by decide
theorem test_V4_second_selector : raises (codeAt 0 [0x09, 0x00, 0x0A]) (.invalidRegister 0x0A) = true := by decide
theorem test_V5_first_operand_first : raises (codeAt 0 [0x09, 0x0A, 0x0B]) (.invalidRegister 0x0A) = true := by decide
theorem test_V6_register_past_end : raises (sized 3 [0x08, 0x05, 0x00]) .outOfBounds = true := by decide
theorem test_V7_literal_past_end : raises (sized 2 [0x08, 0x05]) .outOfBounds = true := by decide
theorem test_V8_selector_after_literal : raises (sized 4 [0x08, 0x05, 0x00, 0x0C]) (.invalidRegister 0x0C) = true := by decide
theorem test_V9_selector_before_end : raises (sized 2 [0x09, 0x0A]) (.invalidRegister 0x0A) = true := by decide
theorem test_V10_no_memory : raises (sized 0 []) .outOfBounds = true := by decide
theorem test_V13_faulted_steps_no_more : raises { codeAt 0 [0x00] with faulted := true } .alreadyFaulted = true := by decide
theorem test_V12_halted_executes_nothing :
    stepsTo { codeAt 0 [0x09, 0x00, 0x09] with flags := 0x20 } (· == { codeAt 0 [0x09, 0x00, 0x09] with flags := 0x20 }) = true := by
  decide

/-! ### Control -/

-- R120's example
theorem test_halt : stepsTo { codeAt 0x17 [0x00] with flags := 0x0015 } (fun t =>
    t.flags == 0x0035 && t.pc == 0x0017 && t.status == .halted) = true := by decide
-- V24, V27
theorem test_compare_unsigned : stepsTo (withR01 0x8000 0x7FFF [0x01, 0x00, 0x01]) (fun t => t.flags == 0x18 && t.pc == 3) = true := by
  decide
theorem test_compare_reads_flags_first : stepsTo { withR01 0x1F 0 [0x01, 0x09, 0x00] with flags := 0x1F }
    (fun t => t.flags == 0x15) = true := by decide
-- V30
theorem test_jump_to_itself : stepsTo (codeAt 0x20 [0x02, 0x20, 0x00]) (fun t => t.pc == 0x20 && t.started) = true := by decide
-- L2.3's table, one row a theorem: FLAGS 0x00, 0x06, 0x15, 0x18, 0x0A, 0xFFC0
def pcAfterJump (op : Byte) (flags : Word) : Option Word :=
  match step { codeAt 0x20 [op, 0x00, 0x01] with flags := flags } with
  | .next t => some t.pc
  | _ => none

theorem test_jumpeq_row : [0x00, 0x06, 0x15, 0x18, 0x0A, 0xFFC0].map (pcAfterJump 0x03) =
    [some 0x23, some 0x23, some 0x0100, some 0x23, some 0x23, some 0x23] := by decide
theorem test_jumplt_row : [0x00, 0x06, 0x15, 0x18, 0x0A, 0xFFC0].map (pcAfterJump 0x04) =
    [some 0x23, some 0x0100, some 0x23, some 0x23, some 0x0100, some 0x23] := by decide
theorem test_jumpgt_row : [0x00, 0x06, 0x15, 0x18, 0x0A, 0xFFC0].map (pcAfterJump 0x05) =
    [some 0x23, some 0x23, some 0x23, some 0x0100, some 0x0100, some 0x23] := by decide
theorem test_jumplte_row : [0x00, 0x06, 0x15, 0x18, 0x0A, 0xFFC0].map (pcAfterJump 0x06) =
    [some 0x23, some 0x0100, some 0x0100, some 0x23, some 0x23, some 0x23] := by decide
theorem test_jumpgte_row : [0x00, 0x06, 0x15, 0x18, 0x0A, 0xFFC0].map (pcAfterJump 0x07) =
    [some 0x23, some 0x23, some 0x0100, some 0x0100, some 0x23, some 0x23] := by decide
-- V31
theorem test_jumplt_falls_through_past_the_top : stepsTo (codeAt 0xFFFD [0x04, 0x00, 0x01]) (fun t => t.pc == 0) = true := by decide

/-! ### Data movement -/

-- V81, V82
theorem test_movlr_to_pc : stepsTo (codeAt 0 [0x08, 0x10, 0x00, 0x08]) (fun t => t.pc == 0x14) = true := by decide
theorem test_movlr_to_flags_halts : stepsTo (codeAt 0 [0x08, 0x20, 0x00, 0x09])
    (fun t => t.flags == 0x20 && t.pc == 4 && t.status == .halted) = true := by decide
-- V83
theorem test_movrr_from_pc : stepsTo (codeAt 0x20 [0x09, 0x08, 0x00]) (fun t => t.regs.r0 == 0x20 && t.pc == 0x23) = true := by decide
-- V84, V85
theorem test_movlm_at_the_top : stepsTo (codeAt 0 [0x0A, 0xCD, 0xAB, 0xFE, 0xFF]) (fun t =>
    t.mem.byteAt 0xFFFE == 0xCD && t.mem.byteAt 0xFFFF == 0xAB && t.pc == 5) = true := by decide
theorem test_movlm_past_the_top : raises (codeAt 0 [0x0A, 0xCD, 0xAB, 0xFF, 0xFF]) .outOfBounds = true := by decide
-- V87
theorem test_movrm : stepsTo { codeAt 0 [0x0B, 0x02, 0x00, 0x01] with regs := { State.reset.regs with r2 := 0xBEEF } }
    (fun t => t.mem.byteAt 0x100 == 0xEF && t.mem.byteAt 0x101 == 0xBE && t.pc == 4) = true := by decide
-- R144's example, V88
theorem test_movemr : stepsTo (withR3 0 [0x0C, 0x00, 0x01, 0x02] 0x100 [0x34, 0x12])
    (fun t => t.regs.r2 == 0x1234 && t.pc == 4) = true := by decide
theorem test_movemr_past_the_top : raises (codeAt 0 [0x0C, 0xFF, 0xFF, 0x02]) .outOfBounds = true := by decide
-- V89, V90
theorem test_movlir : stepsTo (withR3 0x0100 [0x0D, 0xEF, 0xBE, 0x03] 0x200 [])
    (fun t => t.mem.byteAt 0x100 == 0xEF && t.mem.byteAt 0x101 == 0xBE && t.regs.r3 == 0x0100) = true := by decide
theorem test_movlir_over_itself : stepsTo (codeAt 0x40 [0x0D, 0xEF, 0xBE, 0x08])
    (fun t => t.mem.byteAt 0x40 == 0xEF && t.mem.byteAt 0x41 == 0xBE && t.pc == 0x44) = true := by decide
-- V91, V92
theorem test_moveirr_own_bytes : stepsTo (codeAt 0 [0x0E, 0x08, 0x00]) (fun t => t.regs.r0 == 0x080E && t.pc == 3) = true := by decide
theorem test_moveirr_past_the_top : raises (withR3 0xFFFF [0x0E, 0x03, 0x04] 0x100 []) .outOfBounds = true := by decide
-- V93
theorem test_moveirm_overlap : stepsTo (withR3 0x0100 [0x0F, 0x03, 0x01, 0x01] 0x100 [0x11, 0x22, 0x33])
    (fun t => t.mem.byteAt 0x100 == 0x11 && t.mem.byteAt 0x101 == 0x11 && t.mem.byteAt 0x102 == 0x22) = true := by decide
-- V94, V95
theorem test_moveimr_self_pointer : stepsTo (withR3 0 [0x10, 0x00, 0x02, 0x05] 0x200 [0x00, 0x02])
    (fun t => t.regs.r5 == 0x0200 && t.pc == 4) = true := by decide
theorem test_moveimr_target_past_the_top : raises (withR3 0 [0x10, 0x00, 0x02, 0x05] 0x200 [0xFF, 0xFF]) .outOfBounds = true := by
  decide

/-! ### Arithmetic, logic and shift -/

-- W2, V74
theorem test_add_wraps : stepsTo (withR01 0xFFFF 1 [0x11, 0x00, 0x01])
    (fun t => t.regs.r1 == 0 && t.regs.r0 == 0xFFFF && t.pc == 3 && t.flags == 0) = true := by decide
theorem test_add_to_pc : stepsTo (withR01 0x10 0 [0x11, 0x00, 0x08]) (fun t => t.pc == 0x13) = true := by decide
-- V42, V44
theorem test_subtract_order : stepsTo (withR01 10 3 [0x12, 0x00, 0x01]) (fun t => t.regs.r1 == 7) = true := by decide
theorem test_subtract_wraps : stepsTo (withR01 5 7 [0x12, 0x00, 0x01]) (fun t => t.regs.r1 == 0xFFFE) = true := by decide
-- V46, V47
theorem test_multiply_low_half : stepsTo (withR01 0xFFFF 0xFFFF [0x13, 0x00, 0x01]) (fun t => t.regs.r1 == 1) = true := by decide
theorem test_multiply_wraps : stepsTo (withR01 300 300 [0x13, 0x00, 0x01]) (fun t => t.regs.r1 == 0x5F90) = true := by decide
-- V48, W3
theorem test_divide_truncates : stepsTo (withR01 100 7 [0x14, 0x00, 0x01]) (fun t => t.regs.r1 == 14) = true := by decide
theorem test_divide_by_zero : raises (withR01 7 0 [0x14, 0x00, 0x01]) .arithmeticError = true := by decide
-- V75, V77
theorem test_increment_pc : stepsTo (codeAt 0 [0x15, 0x08]) (fun t => t.pc == 3) = true := by decide
theorem test_increment_at_the_top : stepsTo (codeAt 0xFFFE [0x15, 0x00]) (fun t => t.regs.r0 == 1 && t.pc == 0) = true := by decide
-- V58
theorem test_decrement_wraps : stepsTo (codeAt 0 [0x16, 0x00]) (fun t => t.regs.r0 == 0xFFFF && t.pc == 2) = true := by decide
-- V53, V54, V55
theorem test_and : stepsTo (withR01 0xF0F0 0x3C3C [0x17, 0x00, 0x01]) (fun t => t.regs.r1 == 0x3030) = true := by decide
theorem test_or : stepsTo (withR01 0xF0F0 0x3C3C [0x18, 0x00, 0x01]) (fun t => t.regs.r1 == 0xFCFC) = true := by decide
theorem test_xor : stepsTo (withR01 0xF0F0 0x3C3C [0x19, 0x00, 0x01]) (fun t => t.regs.r1 == 0xCCCC) = true := by decide
-- V60, V76
theorem test_not : stepsTo (withR01 0x1234 0 [0x1A, 0x00]) (fun t => t.regs.r0 == 0xEDCB && t.pc == 2) = true := by decide
theorem test_not_flags_halts : stepsTo (codeAt 0 [0x1A, 0x09])
    (fun t => t.flags == 0xFFFF && t.pc == 2 && t.status == .halted) = true := by decide
-- V62, V65
theorem test_shiftleft_loses_the_top_bit : stepsTo (withR01 0x8001 0 [0x1B, 0x00, 0x01, 0x00]) (fun t => t.regs.r0 == 2) = true := by
  decide
theorem test_shiftleft_sixteen : stepsTo (withR01 1 0 [0x1B, 0x00, 0x10, 0x00]) (fun t => t.regs.r0 == 0) = true := by decide
-- V68, V70
theorem test_shiftright_logical : stepsTo (withR01 0x8000 0 [0x1C, 0x00, 0x0F, 0x00]) (fun t => t.regs.r0 == 1) = true := by decide
theorem test_shiftright_sixteen : stepsTo (withR01 0xFFFF 0 [0x1C, 0x00, 0x10, 0x00]) (fun t => t.regs.r0 == 0) = true := by decide

/-! ### Host operations (V100 to V105) and the table's words -/

theorem test_V100_out_of_memory : (sized 16 []).load 0 (List.replicate 17 0x01) = (sized 16 [], .error .outOfMemory) := rfl
theorem test_V101_bad_offset : (sized 16 []).load 10 (List.replicate 7 0x01) = (sized 16 [], .error .badOffset) := rfl
theorem test_V102_empty_load_at_the_end : (sized 16 []).load 16 [] = (sized 16 [], .ok ()) := rfl
theorem test_V103_empty_load_past_the_end : (sized 16 []).load 17 [] = (sized 16 [], .error .badOffset) := rfl
theorem test_V104_zero_memory_halts : State.reset.stepRequest.2 = .ok .halted := by decide
theorem test_V105_init_leaves_faulted : ({ codeAt 4 [0x00] with faulted := true } : State).init.status = .ready := by decide
theorem test_run_halts_at_once : (State.reset.runRequest 1).map (fun r => r.2) = some (.ok .halted) := by decide
theorem test_run_error : ((codeAt 0 [0x1D]).runRequest 1).map (fun r => (r.1.faulted, r.2)) =
    some (true, .err (.unimplementedInstruction 0x1D)) := by decide

theorem test_table_word_movlm : decodeTableWord 40 0x010012340A = some (.movlm 0x1234 0x0100) := by decide
theorem test_table_word_operands_zero : decodeTableWord 8 0x12 = some (.subtract .r0 .r0) := by decide
theorem test_table_word_unmapped : decodeTableWord 8 0x1D = none := by decide
theorem test_fetch_word_runs : stepsTo (State.reset.withFetchWord 24 0x010011) (fun t => t.pc == 3 && t.started) = true := by decide

/-! ### Witnesses: a concrete input that meets the hypotheses of each statement that has some, at a boundary where it has one -/

theorem witness_DecodeOfEncodeIsTheInstruction : (Instr.movlm 0xFFFF 0xFFFF).wf Maps.default = true := by decide
theorem witness_DecodedBytesAreTheEncoding : decode Maps.default [0x16, 0x09, 0xFF] = .ok (.decrement .flags, [0xFF]) := rfl
theorem witness_WidthIsFixedByTheOpcodeByte_twice :
    decode Maps.default (0x15 :: [0x00]) = .ok (.increment .r0, []) ∧
    decode Maps.default (0x15 :: [0x09, 0x01]) = .ok (.increment .flags, [0x01]) := ⟨rfl, rfl⟩
theorem witness_WidthIsFixedByTheOpcodeByte_jumplt :
    ({ codeAt 0xFFFC [] with flags := 0xFFFD } : State).flags.getLsbD 1 = false ∧
    ({ codeAt 0xFFFC [] with flags := 0xFFFD } : State).pc.toNat + 3 < 65536 := by decide
theorem witness_UnknownOpcodeStopsBeforeItsOperands :
    (codeAt 0xFFFF [0x1D]).faulted = false ∧ (codeAt 0xFFFF [0x1D]).hlt = false ∧
    (codeAt 0xFFFF [0x1D]).mem.read8 0xFFFF = .ok 0x1D ∧ ∀ op, Maps.default.opcodes.byteOf op ≠ 0x1D :=
  ⟨rfl, by decide, rfl, fun op => by cases op <;> decide⟩
theorem witness_OpcodeIsFetchedAtPcOrOutOfBounds_past :
    (sized 0 []).faulted = false ∧ (sized 0 []).hlt = false ∧ (sized 0 []).mem.size < (sized 0 []).pc.toNat + 1 := by decide
theorem witness_OpcodeIsFetchedAtPcOrOutOfBounds_in :
    (sized 1 []).mem.read8 (sized 1 []).pc.toNat = .ok 0x00 ∧ (sized 1 []).fetch = .ok .halt := ⟨rfl, rfl⟩
theorem witness_UnknownSelectorIsADecodeError_first :
    Maps.default.lookup 0x1A = some .not ∧ (∀ sl, Maps.default.selectors.byteOf sl ≠ 0x0A) ∧
    Mnemonic.not.operands = .register :: [] := ⟨rfl, fun sl => by cases sl <;> decide, rfl⟩
theorem witness_UnknownSelectorIsADecodeError_second :
    Maps.default.lookup 0x09 = some .movrr ∧ Mnemonic.movrr.operands = [.register, .register] ∧
    Maps.default.resolve 0x09 = some .flags := ⟨rfl, rfl, rfl⟩
theorem witness_UnknownSelectorIsADecodeError_after_a_word :
    Maps.default.lookup 0x10 = some .moveimr ∧ Mnemonic.moveimr.operands = [.address, .register] ∧
    OperandKind.address ≠ .register := ⟨rfl, rfl, by decide⟩
theorem witness_ByteOrderIsLittleEndianEverywhere_store :
    ∃ t w, (sized 3 []).mem.write16 0 0x1234 = .ok t ∧ t.read16 1 = .ok w := ⟨_, _, rfl, rfl⟩
theorem witness_ByteOrderIsLittleEndianEverywhere_fetch :
    (sized 5 [0x0A, 1, 2, 3, 4]).maps.lookup 0x0A = some .movlm ∧
    BytesAt (sized 5 [0x0A, 1, 2, 3, 4]).mem 0 [0x0A, 1, 2, 3, 4] := by
  refine ⟨rfl, by decide, fun k b h => ?_⟩
  rcases k with _ | _ | _ | _ | _ | k <;> simp at h <;> subst h <;> decide
theorem witness_ByteOrderIsLittleEndianEverywhere_first_word :
    Maps.default.lookup 0x08 = some .movlr ∧ Mnemonic.movlr.operands = [.literal, .register] ∧
    decode Maps.default [0x08, 0xFF, 0x00, 0x09] = .ok (.movlr 0x00FF .flags, []) := by decide
theorem witness_ByteOrderIsLittleEndianEverywhere_word_after_slot :
    Maps.default.lookup 0x1C = some .shiftright ∧ Mnemonic.shiftright.operands = [.register, .literal] ∧
    decode Maps.default [0x1C, 0x00, 0x00, 0xFF] = .ok (.shiftright .r0 0xFF00, []) := by decide
theorem witness_InstructionsWriteOnlyTheTwoBytesOfTheirTarget_stores :
    ∃ t, exec (.movlm 0xABCD 0xFFFE) State.reset = .next t ∧
      storeOf State.reset (.movlm 0xABCD 0xFFFE) = some (0xFFFE, 0xABCD) := ⟨_, rfl, rfl⟩
theorem witness_InstructionsWriteOnlyTheTwoBytesOfTheirTarget_stores_nothing :
    ∃ t, exec (.add .r0 .r1) State.reset = .next t ∧ storeOf State.reset (.add .r0 .r1) = none := ⟨_, rfl, rfl⟩
theorem witness_ByteWritesReadBackAndTouchNothingElse : ∃ t, (sized 1 []).mem.write8 0 0xFF00 = .ok t := ⟨_, rfl⟩
theorem witness_MemoriesThatReadAlikeAreEqual :
    (sized 4 [0, 7]).mem.wf = true ∧ ((sized 4 [9, 7]).mem.setByte 0 0).wf = true ∧
    (sized 4 [0, 7]).mem.size = ((sized 4 [9, 7]).mem.setByte 0 0).size ∧
    ∀ a, (sized 4 [0, 7]).mem.byteAt a = ((sized 4 [9, 7]).mem.setByte 0 0).byteAt a := by
  refine ⟨by decide, by decide, rfl, fun a => ?_⟩
  have : (sized 4 [0, 7]).mem = (sized 4 [9, 7]).mem.setByte 0 0 := by decide
  rw [this]
theorem witness_LoadChecksThenWritesExactlyItsBytes_out_of_memory : (sized 2 []).mem.size < [1, 2, 3].length := by decide
theorem witness_LoadChecksThenWritesExactlyItsBytes_bad_offset :
    [1, 2].length ≤ (sized 2 []).mem.size ∧ (sized 2 []).mem.size < 1 + [1, 2].length := by decide
theorem witness_LoadChecksThenWritesExactlyItsBytes_fits :
    0 + [1, 2].length ≤ (sized 2 []).mem.size ∧ [1, 2][1]? = some 2 := by decide
theorem sized_one_inv : (sized 1 []).Inv := ⟨by decide, by decide, fun _ sl => by cases sl <;> rfl⟩
theorem witness_EveryStepKeepsTheInvariant : (sized 1 []).Inv ∧ ∃ t, step (sized 1 []) = .next t := by
  refine ⟨sized_one_inv, ?_⟩
  have : stepsTo (sized 1 []) (fun _ => true) = true := by decide
  unfold stepsTo at this
  split at this
  · exact ⟨_, ‹_›⟩
  · cases this
theorem witness_EveryHostSessionKeepsTheInvariant : Config.default.maps.wf = true := by decide
theorem witness_StepRunsTheDecodedInstruction :
    (sized 1 []).faulted = false ∧ (sized 1 []).hlt = false ∧
    decode (sized 1 []).maps ((sized 1 []).mem.bytesFrom 0 maxWidth) = .ok (.halt, []) := ⟨rfl, by decide, rfl⟩
theorem bytesAt_jump_to_itself : BytesAt (codeAt 0x20 [0x02, 0x20, 0x00]).mem 0x20 [0x02, 0x20, 0x00] := by
  refine ⟨by decide, fun k b h => ?_⟩
  rcases k with _ | _ | _ | k <;> simp at h <;> subst h <;> decide
theorem witness_StepRunsTheInstructionWhoseBytesStandAtPc :
    (codeAt 0x20 [0x02, 0x20, 0x00]).faulted = false ∧ (codeAt 0x20 [0x02, 0x20, 0x00]).hlt = false ∧
    (Instr.jump 0x20).wf Maps.default = true ∧ encode Maps.default (.jump 0x20) = [0x02, 0x20, 0x00] ∧
    BytesAt (codeAt 0x20 [0x02, 0x20, 0x00]).mem 0x20 [0x02, 0x20, 0x00] :=
  ⟨rfl, by decide, by decide, by decide, bytesAt_jump_to_itself⟩
theorem witness_RunNeverReturnsOnAJumpToItself :
    (codeAt 0x20 [0x02, 0x20, 0x00]).faulted = false ∧ (codeAt 0x20 [0x02, 0x20, 0x00]).hlt = false ∧
    (Instr.jump (codeAt 0x20 [0x02, 0x20, 0x00]).pc).wf Maps.default = true ∧
    BytesAt (codeAt 0x20 [0x02, 0x20, 0x00]).mem 0x20 (encode Maps.default (.jump 0x20)) :=
  ⟨rfl, by decide, by decide, bytesAt_jump_to_itself⟩
theorem witness_FaultedIsLeftOnlyByInit :
    (sized 1 []).markFaulted.faulted = true ∧ ((sized 1 []).markFaulted.serve .init).faulted = false := ⟨rfl, rfl⟩
theorem witness_HaltedIsLeftOnlyByInit :
    ({ sized 1 [] with flags := 0x20 } : State).status = .halted ∧ Request.init ∉ [.load 0 [0x11], .step] := by decide
theorem witness_ErrorsLeaveEverythingButTheFaultedMarker : ∃ e, step (sized 0 []) = .fault e := ⟨_, rfl⟩
theorem witness_StatusFollowsTheLifecycleTable :
    (sized 1 []).status = .ready ∧ ({ sized 1 [] with started := true } : State).status = .running ∧
    ({ sized 1 [] with flags := 0x20 } : State).status = .halted ∧
    ({ sized 1 [] with flags := 0x20 } : State).markFaulted.status = .faulted := by decide
theorem witness_RunAgreesWithRepeatedSteps : State.reset.faulted = false := rfl
theorem witness_RunAgreesWithRepeatedSteps_halted : (sized 1 []).faulted = false ∧
    ∃ t, (sized 1 []).runRequest 1 = some (t, .ok .halted) := ⟨rfl, _, rfl⟩
theorem witness_RunAgreesWithRepeatedSteps_error : (sized 0 []).faulted = false ∧
    ∃ t, (sized 0 []).runRequest 1 = some (t, .err .outOfBounds) := ⟨rfl, _, rfl⟩
/-- A JUMP to itself has not returned after two steps (R195). -/
theorem witness_RunAgreesWithRepeatedSteps_none : (codeAt 0x20 [0x02, 0x20, 0x00]).faulted = false ∧
    (codeAt 0x20 [0x02, 0x20, 0x00]).runRequest 2 = none := by decide
theorem witness_HaltSetsHltAndStaysInPlace : State.reset.faulted = false := rfl
theorem witness_JumpSetsPcToItsOperand :
    (sized 0x100 []).faulted = false ∧ (sized 0x100 []).hlt = false ∧
    (sized 0x100 []).mem.size < (0x0100 : Word).toNat + 1 := by decide
theorem witness_ConditionalJumpsFollowTheirOneFlagBit :
    ({ State.reset with flags := 0x0A } : State).flags.getLsbD 3 = true ∧
    ({ State.reset with flags := 0x0A } : State).flags.getLsbD 2 = false := by decide
theorem witness_StoresWriteTheirWordAtTheirTarget :
    absoluteAddress 0xFFFE + 2 ≤ State.reset.mem.size ∧ (withR3 0xFFFE [] 0 []).indirectAddress .r3 + 2 ≤ 65536 := by decide
theorem witness_LoadsWriteTheWordTheyRead :
    (0xFFFE : Word).toNat + 2 ≤ State.reset.mem.size ∧ ((withR3 0xFFFE [] 0 []).read .r3).toNat + 2 ≤ 65536 ∧
    wordAt (withR3 0 [] 0xFFFE [0xFE, 0xFF]).mem 0xFFFE + 2 ≤ 65536 := by decide
theorem witness_StoredInstructionIsSeenByTheNextFetch :
    ∃ t, exec (.movlm 0x0000 0x0009) State.reset = .next t ∧
      storeOf State.reset (.movlm 0x0000 0x0009) = some ((0x0009 : Word).toNat, 0x0000) ∧
      Instr.halt.wf State.reset.maps = true ∧
      encode State.reset.maps .halt ++ [0x00] = [lowByte 0x0000, highByte 0x0000] :=
  ⟨_, rfl, rfl, by decide, by decide⟩
/-- MOVLIR through PC stores over its own first two bytes (R145's corner case). -/
theorem witness_StoredInstructionIsSeenByTheNextFetch_over_itself :
    (codeAt 0x40 [0x0D, 0x00, 0x00, 0x08]).faulted = false ∧ (codeAt 0x40 [0x0D, 0x00, 0x00, 0x08]).hlt = false ∧
    (Instr.movlir 0 .pc).wf Maps.default = true ∧
    BytesAt (codeAt 0x40 [0x0D, 0x00, 0x00, 0x08]).mem 0x40 (encode Maps.default (.movlir 0 .pc)) ∧
    storeOf (codeAt 0x40 [0x0D, 0x00, 0x00, 0x08]) (.movlir 0 .pc) = some ((0x40 : Word).toNat, 0) ∧
    (0x40 : Word).toNat + 2 ≤ (codeAt 0x40 [0x0D, 0x00, 0x00, 0x08]).mem.size ∧
    encode Maps.default .halt ++ [0x00] = [lowByte 0, highByte 0] :=
  ⟨rfl, by decide, by decide, ⟨by decide, bytes⟩, rfl, by decide, rfl⟩
where
  bytes : ∀ k b, (encode Maps.default (.movlir 0 .pc))[k]? = some b →
      (codeAt 0x40 [0x0D, 0x00, 0x00, 0x08]).mem.byteAt (0x40 + k) = b
    | 0, _, h => by cases h; rfl
    | 1, _, h => by cases h; rfl
    | 2, _, h => by cases h; rfl
    | 3, _, h => by cases h; rfl
    | _ + 4, _, h => by cases h
theorem witness_StoredInstructionIsSeenByTheNextFetch_moveirm :
    storeOf (withR3 0xFFFE [0x0F, 0x03, 0x00, 0x00] 0 []) (.moveirm .r3 0) = some ((0 : Word).toNat, 0) ∧
    (withR3 0xFFFE [0x0F, 0x03, 0x00, 0x00] 0 []).indirectAddress .r3 + 2 ≤ 65536 := ⟨rfl, by decide⟩
theorem witness_DivideTruncatesAndFaultsOnZero :
    ((withR01 7 1 []).read .r1).toNat ≠ 0 ∧ ((withR01 7 0 []).read .r1).toNat = 0 := by decide
theorem witness_OnlyTheDestinationRegisterChanges :
    (∃ t, exec (.add .r0 .r1) State.reset = .next t) ∧ Slot.flags ≠ .pc ∧ ¬ mayChange (.add .r0 .r1) .flags :=
  ⟨⟨_, rfl⟩, by decide, by rintro (h | ⟨-, h | ⟨a, b, h⟩⟩) <;> cases h⟩
theorem witness_PcMovesByTheWidthOrToTheJumpOperand :
    (∃ t, exec .halt State.reset = .next t) ∧
    (∃ t, exec (.jumpeq 0x100) State.reset = .next t) ∧ jumpTarget (.jumpeq 0x100) = some 0x100 ∧
    (∃ t, exec (.movlm 0 0xFFFE) State.reset = .next t) ∧ jumpTarget (.movlm 0 0xFFFE) = none ∧
    destination (.movlm 0 0xFFFE) ≠ some .pc := ⟨⟨_, rfl⟩, ⟨_, rfl⟩, rfl, ⟨_, rfl⟩, rfl, by decide⟩
theorem witness_OnlyHaltOrAFlagsDestinationHalts :
    State.reset.hlt = false ∧ ∃ t, exec (.movlr 0x0020 .flags) State.reset = .next t ∧ t.hlt = true :=
  ⟨by decide, _, rfl, by decide⟩
theorem witness_InstructionsNeitherReadNorWriteTheMarkers :
    (∃ t, exec (.not .r0) State.reset = .next t) ∧ exec (.divide .r0 .r1) State.reset = .fault .arithmeticError :=
  ⟨⟨_, rfl⟩, rfl⟩
theorem witness_MeaningsDoNotDependOnTheMaps :
    (∃ t, exec (.not .r0) State.reset = .next t) ∧ exec (.divide .r0 .r1) State.reset = .fault .arithmeticError :=
  ⟨⟨_, rfl⟩, rfl⟩
theorem witness_EveryRequestKeepsTheInvariant : (sized 1 []).Inv ∧ ((sized 1 []).serve (.load 0 [0x1D])).mem ≠ (sized 1 []).mem :=
  ⟨sized_one_inv, by decide⟩
theorem witness_ReadyAndRunningStepTheSame : State.reset.faulted = false ∧ State.reset.hlt = false := by decide

end Sys2Proof.Tests
end

section
/-! PROOFS. Family 20_memory.md: the access primitives (R52), byte order (R55) and what an instruction may write (R58). -/

namespace Sys2Proof.Machine

/-! ### The two 8-bit primitives (R53): one lemma each way -/

theorem read8_ok_iff (m : Memory) (a : Nat) (x : Byte) :
    m.read8 a = .ok x ↔ a + 1 ≤ m.size ∧ x = m.byteAt a := by
  simp only [Memory.read8]
  split <;> simp_all [eq_comm]

theorem read8_error_iff (m : Memory) (a : Nat) (e : Fault) :
    m.read8 a = .error e ↔ m.size < a + 1 ∧ e = .outOfBounds := by
  simp only [Memory.read8]
  split <;> simp_all [eq_comm]

theorem write8_ok_iff (m t : Memory) (a : Nat) (v : Word) :
    m.write8 a v = .ok t ↔ a + 1 ≤ m.size ∧ t = m.setByte a (lowByte v) := by
  simp only [Memory.write8]
  split <;> simp_all [eq_comm]

theorem write8_error_iff (m : Memory) (a : Nat) (v : Word) (e : Fault) :
    m.write8 a v = .error e ↔ m.size < a + 1 ∧ e = .outOfBounds := by
  simp only [Memory.write8]
  split <;> simp_all [eq_comm]

/-- Settles O10, from what each primitive answers: its `ok` carries the bounds check, its error the check's negation. -/
theorem accessesFailExactlyPastTheEndOfMemory : Obligations.AccessesFailExactlyPastTheEndOfMemory := by
  intro m a v
  refine ⟨?_, ?_, ?_, ?_, ?_, ?_, ?_, ?_⟩
  · simp [read8_ok_iff]
  · simp [read8_error_iff]
  · simp [read16_ok_iff]
  · simp [read16_error_iff]
  · simp [write8_ok_iff]
  · simp [write8_error_iff]
  · simp [write16_ok_iff]
  · simp [write16_error_iff]

/-! ### What an instruction writes to memory (R58) -/

/-- An instruction that completes leaves memory, or it makes the one 16-bit write of its store. -/
theorem exec_next_mem {i : Instr} {s t : State} (h : exec i s = .next t) :
    (storeOf s i = none ∧ t.mem = s.mem) ∨
    ∃ a v, storeOf s i = some (a, v) ∧ s.mem.write16 a v = .ok t.mem := by
  rcases exec_next_cases h with ⟨rfl, rfl⟩ | ⟨a, b, rfl, rfl⟩ | ⟨dst, v, -, hs, -, rfl⟩ |
    ⟨a, v, m, -, hs, -, hw, rfl⟩ | ⟨addr, -, hs, -, -, rfl | rfl⟩
  · exact .inl ⟨rfl, rfl⟩
  · exact .inl ⟨rfl, by simp⟩
  · exact .inl ⟨hs, by simp⟩
  · exact .inr ⟨a, v, hs, hw⟩
  · exact .inl ⟨hs, rfl⟩
  · exact .inl ⟨hs, rfl⟩

/-- The two bytes of a successful 16-bit write as numbers: low byte first. -/
theorem write16_bytes_toNat {m t : Memory} {a : Nat} {v : Word} (h : m.write16 a v = .ok t) :
    (t.byteAt a).toNat = v.toNat % 256 ∧ (t.byteAt (a + 1)).toNat = v.toNat / 256 := by
  obtain ⟨-, hlo, hhi, -⟩ := write16_spec h
  rw [hlo, hhi]
  exact ⟨lowByte_toNat v, highByte_toNat v⟩

/-- Settles O12: a completed instruction leaves memory or makes the 16-bit write of its store, whose bytes are known. -/
theorem instructionsWriteOnlyTheTwoBytesOfTheirTarget :
    Obligations.InstructionsWriteOnlyTheTwoBytesOfTheirTarget := by
  intro i s t h
  rcases exec_next_mem h with ⟨hnone, hmem⟩ | ⟨a, v, hsome, hw⟩
  · refine ⟨fun _ x => by rw [hmem], fun a v hs => ?_⟩
    simp [hnone] at hs
  · refine ⟨fun hs => by simp [hsome] at hs, fun a' v' hs => ?_⟩
    obtain ⟨rfl, rfl⟩ : a = a' ∧ v = v' := by simpa [hsome] using hs
    obtain ⟨hlo, hhi⟩ := write16_bytes_toNat hw
    obtain ⟨-, -, -, hothers⟩ := write16_spec hw
    exact ⟨hlo, hhi, hothers⟩

/-! ### Byte order of stores and loads (R53, R55) -/

/-- A 16-bit store is read back whole. -/
theorem read16_write16_same {m t : Memory} {a : Nat} {v : Word} (h : m.write16 a v = .ok t) : t.read16 a = .ok v := by
  obtain ⟨hsize, hlo, hhi, -⟩ := write16_spec h
  have hbound := ((write16_ok_iff m t a v).1 h).1
  rw [read16_ok_iff, hsize, hlo, hhi, wordOf_low_high]
  exact ⟨hbound, rfl⟩

/-- A read one byte above a 16-bit store sees the store's high byte as its low byte. -/
theorem read16_write16_succ {m t : Memory} {a : Nat} {v w : Word} (h : m.write16 a v = .ok t)
    (hr : t.read16 (a + 1) = .ok w) : w.toNat = v.toNat / 256 + 256 * (m.byteAt (a + 2)).toNat := by
  obtain ⟨-, -, hhi, hothers⟩ := write16_spec h
  obtain ⟨-, rfl⟩ := (read16_ok_iff t (a + 1) w).1 hr
  rw [wordOf_toNat, hhi, highByte_toNat, hothers (a + 1 + 1) (by omega) (by omega)]

/-! ### Byte order of LITERAL and ADDRESS fields (R55, R88) -/

/-- After its opcode byte an instruction is decoded by its operands. -/
theorem decode_cons_of_lookup {m : Maps} {x : Byte} {op : Mnemonic} (h : m.lookup x = some op) (bs : List Byte) :
    decode m (x :: bs) = decodeOperands m op bs := by
  simp only [decode, h]

/-- Fetch answers the instruction that the bytes at PC decode to. -/
theorem fetch_of_decode {s : State} {i : Instr} {rest : List Byte}
    (h : decode s.maps (s.mem.bytesFrom s.pc.toNat maxWidth) = .ok (i, rest)) : s.fetch = .ok i := by
  simp only [State.fetch, h]

/-- `maxWidth` bytes that stand at an address are all that a read of `maxWidth` bytes there gives. -/
theorem bytesFrom_of_bytesAt_maxWidth {m : Memory} {a : Nat} {bs : List Byte} (h : BytesAt m a bs)
    (hlen : bs.length = maxWidth) : m.bytesFrom a maxWidth = bs := by
  rw [bytesFrom_of_bytesAt h hlen.le, hlen, Nat.sub_self, Memory.bytesFrom, List.append_nil]

/-- MOVLM's two fields, low byte first, from the bytes at PC. -/
theorem fetch_movlm {s : State} {x b₁ b₂ b₃ b₄ : Byte} (hop : s.maps.lookup x = some .movlm)
    (hbytes : BytesAt s.mem s.pc.toNat [x, b₁, b₂, b₃, b₄]) :
    s.fetch = .ok (.movlm (wordOf b₁ b₂) (wordOf b₃ b₄)) := by
  apply fetch_of_decode (rest := [])
  rw [bytesFrom_of_bytesAt_maxWidth hbytes rfl, decode_cons_of_lookup hop]
  rfl

/-- An instruction whose first operand is a 16-bit field has it as its first value, and is encoded with its low byte, then
its high byte, after the opcode byte. -/
theorem encode_tail_word_first (m : Maps) {i : Instr} {k : OperandKind} {kinds : List OperandKind}
    (hops : i.mnemonic.operands = k :: kinds) (hk : k ≠ .register) :
    ∃ v tail, i.values.head? = some v ∧ (encode m i).tail = lowByte v :: highByte v :: tail := by
  cases i with
  | halt => cases hops
  | jump v | jumpeq v | jumplt v | jumpgt v | jumplte v | jumpgte v => exact ⟨v, _, rfl, rfl⟩
  | movlr v _ | movlm v _ | movemr v _ | movlir v _ | moveimr v _ => exact ⟨v, _, rfl, rfl⟩
  | compare | movrr | movrm | moveirr | moveirm | add | subtract | multiply | divide | increment | decrement | and | or
  | xor | not | shiftleft | shiftright => cases hops; exact absurd rfl hk

/-- An instruction with a register and then a 16-bit field has the field as its one value, and is encoded with its low byte,
then its high byte, after the selector byte. -/
theorem encode_tail_word_after_slot (m : Maps) {i : Instr} {k : OperandKind}
    (hops : i.mnemonic.operands = [.register, k]) (hk : k ≠ .register) :
    ∃ b v, i.values = [v] ∧ (encode m i).tail = [b, lowByte v, highByte v] := by
  cases i with
  | movrm _ v | moveirm _ v | shiftleft _ v | shiftright _ v => exact ⟨_, v, rfl, rfl⟩
  | compare | movrr | moveirr | add | subtract | multiply | divide | and | or | xor => cases hops; exact absurd rfl hk
  | halt | jump | jumpeq | jumplt | jumpgt | jumplte | jumpgte | movlr | movlm | movemr | movlir | moveimr | increment
  | decrement | not => cases hops

/-- A 16-bit number from its two bytes (R10). -/
theorem toNat_eq_low_add_high (v : Word) : v.toNat = (lowByte v).toNat + 256 * (highByte v).toNat := by
  rw [← wordOf_toNat, wordOf_low_high]

/-- A 16-bit field right after the opcode byte decodes low byte first. -/
theorem decode_word_first {m : Maps} {x lo hi : Byte} {op : Mnemonic} {k : OperandKind} {kinds : List OperandKind}
    {rest left : List Byte} {i : Instr} (hop : m.lookup x = some op) (hops : op.operands = k :: kinds)
    (hk : k ≠ .register) (h : decode m (x :: lo :: hi :: rest) = .ok (i, left)) :
    (i.values.map BitVec.toNat).head? = some (lo.toNat + 256 * hi.toNat) := by
  rw [decode_cons_of_lookup hop] at h
  obtain ⟨rfl, hbytes⟩ := decodeOperands_ok h
  obtain ⟨v, tail, hv, htail⟩ := encode_tail_word_first m hops hk
  rw [htail] at hbytes
  obtain ⟨rfl, rfl, -⟩ : lo = lowByte v ∧ hi = highByte v ∧ rest = tail ++ left := by simpa using hbytes
  rw [List.head?_map, hv, ← toNat_eq_low_add_high, Option.map_some]

/-- A 16-bit field after a selector byte decodes low byte first. -/
theorem decode_word_after_slot {m : Maps} {x b lo hi : Byte} {op : Mnemonic} {k : OperandKind}
    {rest left : List Byte} {i : Instr} (hop : m.lookup x = some op) (hops : op.operands = [.register, k])
    (hk : k ≠ .register) (h : decode m (x :: b :: lo :: hi :: rest) = .ok (i, left)) :
    i.values.map BitVec.toNat = [lo.toNat + 256 * hi.toNat] := by
  rw [decode_cons_of_lookup hop] at h
  obtain ⟨rfl, hbytes⟩ := decodeOperands_ok h
  obtain ⟨b', v, hv, htail⟩ := encode_tail_word_after_slot m hops hk
  rw [htail] at hbytes
  obtain ⟨-, rfl, rfl, -⟩ : b = b' ∧ lo = lowByte v ∧ hi = highByte v ∧ rest = left := by simpa using hbytes
  rw [hv, ← toNat_eq_low_add_high, List.map_singleton]

/-- Settles O11: the store's bytes and both reads of them, then the three places a 16-bit field can stand. -/
theorem byteOrderIsLittleEndianEverywhere : Obligations.ByteOrderIsLittleEndianEverywhere := by
  refine ⟨fun m t a v w h => ?_, fun s x b₁ b₂ b₃ b₄ hop hbytes => ?_, ?_, ?_⟩
  · obtain ⟨hlo, hhi⟩ := write16_bytes_toNat h
    exact ⟨hlo, hhi, read16_write16_same h, read16_write16_succ h⟩
  · exact ⟨_, _, fetch_movlm hop hbytes, wordOf_toNat b₁ b₂, wordOf_toNat b₃ b₄⟩
  · exact fun m x lo hi op k kinds rest left i => decode_word_first
  · exact fun m x b lo hi op k rest left i => decode_word_after_slot

end Sys2Proof.Machine
end

section
/-! PROOFS. Family 30_encoding.md: the width of an instruction (R85), the opcode fetch (R86) and an unknown opcode byte
(R87). -/

namespace Sys2Proof.Machine

/-! ### What a decoded instruction consumes (R85) -/

/-- An instruction is decoded from its own encoding, and what follows is left over. -/
theorem eq_encode_append_of_decode {m : Maps} {bs rest : List Byte} {i : Instr} (h : decode m bs = .ok (i, rest)) :
    bs = encode m i ++ rest := by
  obtain ⟨op, operands, rfl, -, hops⟩ := decode_ok h
  obtain ⟨rfl, rfl⟩ := decodeOperands_ok hops
  rw [encode_eq_cons, List.cons_append, List.tail_cons]

/-- Decoding takes as many bytes as the operand table gives the mnemonic. -/
theorem length_of_decode {m : Maps} {bs rest : List Byte} {i : Instr} (h : decode m bs = .ok (i, rest)) :
    bs.length = rest.length + i.mnemonic.width := by
  rw [eq_encode_append_of_decode h, List.length_append, encode_length, Nat.add_comm]

/-- The first byte alone decides the mnemonic. -/
theorem lookup_of_decode_cons {m : Maps} {b : Byte} {bs rest : List Byte} {i : Instr}
    (h : decode m (b :: bs) = .ok (i, rest)) : m.lookup b = some i.mnemonic := by
  obtain ⟨op, operands, hbytes, hop, hops⟩ := decode_ok h
  obtain ⟨rfl, -⟩ := decodeOperands_ok hops
  obtain ⟨rfl, -⟩ := List.cons.inj hbytes
  exact hop

/-- MOVLM's two 16-bit operands make it the one instruction of 5 bytes (R82, R85). -/
theorem width_eq_five_iff (op : Mnemonic) : op.width = 5 ↔ op = .movlm := by
  cases op <;> decide

/-- A conditional jump tests one bit of FLAGS. -/
theorem jumpIf_twoPow (s : State) (op : Mnemonic) {k : Nat} (hk : k < 16) (addr : Word) :
    s.jumpIf op (BitVec.twoPow 16 k) addr = if s.flags.getLsbD k then s.jumpTo addr else s.advance op := by
  rw [State.jumpIf, anySet_twoPow s.flags hk]

/-- JUMPLT falls through when LT, bit 1 of FLAGS, is clear (R124). -/
theorem exec_jumplt_of_bit_clear {s : State} (addr : Word) (h : s.flags.getLsbD 1 = false) :
    exec (.jumplt addr) s = .next (s.advance .jumplt) := by
  have hmask : maskLt = BitVec.twoPow 16 1 := by decide
  change Host.Outcome.next (s.jumpIf .jumplt maskLt addr) = _
  rw [hmask, jumpIf_twoPow s _ (by decide), h, if_neg Bool.false_ne_true]

/-- Settles O5: the bytes consumed are the encoding, whose length the mnemonic fixes, and the opcode byte fixes the mnemonic. -/
theorem widthIsFixedByTheOpcodeByte : Obligations.WidthIsFixedByTheOpcodeByte := by
  refine ⟨fun m bs rest i h => length_of_decode h, fun m b bs bs' rest rest' i i' h h' => ?_, ⟨rfl, rfl, rfl⟩,
    width_eq_five_iff, fun addr s hbit hpc => ⟨_, exec_jumplt_of_bit_clear addr hbit, ?_⟩⟩
  · have hop : i.mnemonic = i'.mnemonic :=
      Option.some.inj ((lookup_of_decode_cons h).symm.trans (lookup_of_decode_cons h'))
    have hlen := length_of_decode h
    have hlen' := length_of_decode h'
    rw [List.length_cons, hop] at hlen
    rw [List.length_cons] at hlen'
    omega
  · rw [advance_toNat, show Mnemonic.jumplt.width = 3 from rfl, Nat.mod_eq_of_lt hpc]

/-! ### The opcode byte in memory (R86) -/

/-- A byte that can be read heads the bytes fetched from its address. -/
theorem bytesFrom_of_read8 {m : Memory} {a : Nat} {b : Byte} (h : m.read8 a = .ok b) (n : Nat) :
    m.bytesFrom a (n + 1) = b :: m.bytesFrom (a + 1) n := by
  obtain ⟨hbound, rfl⟩ := (read8_ok_iff m a b).1 h
  rw [Memory.bytesFrom, if_pos (by omega)]

/-- No bytes are fetched from the end of memory up. -/
theorem bytesFrom_past_end {m : Memory} {a : Nat} (h : m.size < a + 1) (n : Nat) : m.bytesFrom a n = [] := by
  cases n with
  | zero => rfl
  | succ n => rw [Memory.bytesFrom, if_neg (by omega)]

/-! ### Decode, fetch and step on an error -/

theorem decode_cons_of_lookup_none {m : Maps} {b : Byte} (h : m.lookup b = none) (rest : List Byte) :
    decode m (b :: rest) = .error (.unimplementedInstruction b) := by
  simp only [decode, h]

theorem fetch_of_decode_error {s : State} {e : DecodeError}
    (h : decode s.maps (s.mem.bytesFrom s.pc.toNat maxWidth) = .error e) : s.fetch = .error (Fault.ofDecode e) := by
  simp only [State.fetch, h]

/-- A fetched instruction was decoded from the bytes at PC. -/
theorem decode_of_fetch {s : State} {i : Instr} (h : s.fetch = .ok i) :
    ∃ rest, decode s.maps (s.mem.bytesFrom s.pc.toNat maxWidth) = .ok (i, rest) := by
  unfold State.fetch at h
  split at h
  · rename_i j rest hdec
    cases h
    exact ⟨rest, hdec⟩
  · cases h

/-- A PC at or past the end of memory fetches nothing. -/
theorem fetch_past_end {s : State} (h : s.mem.size < s.pc.toNat + 1) : s.fetch = .error .outOfBounds :=
  fetch_of_decode_error (e := .outOfBounds) (by rw [bytesFrom_past_end h]; rfl)

/-- A byte at PC without an entry in the opcode map is named by the fetch error. -/
theorem fetch_of_lookup_none {s : State} {b : Byte} (hb : s.mem.read8 s.pc.toNat = .ok b)
    (hop : s.maps.lookup b = none) : s.fetch = .error (.unimplementedInstruction b) :=
  fetch_of_decode_error (e := .unimplementedInstruction b)
    (by rw [maxWidth, bytesFrom_of_read8 hb, decode_cons_of_lookup_none hop])

/-- A step that fetches raises what fetch raises. -/
theorem step_of_fetch_error {s : State} {e : Fault} (hf : s.faulted = false) (hh : s.hlt = false)
    (h : s.fetch = .error e) : step s = .fault e := by
  simp [step, hf, hh, h, raise]

/-- A step that faults leaves the state before it, marked (R183). -/
theorem stepRequest_of_fault {s : State} {e : Fault} (h : step s = .fault e) :
    s.stepRequest = (s.markFaulted, .err e) := by
  simp only [State.stepRequest, h]

@[simp] theorem markFaulted_pc (s : State) : s.markFaulted.pc = s.pc := rfl

/-- Settles O7: the lookup of the byte at PC fails before any operand is decoded, whatever follows the byte. -/
theorem unknownOpcodeStopsBeforeItsOperands : Obligations.UnknownOpcodeStopsBeforeItsOperands := by
  intro s b hf hh hb hnone
  have hop : s.maps.lookup b = none := (lookup_none_iff s.maps b).2 hnone
  have hstep : step s = .fault (.unimplementedInstruction b) := step_of_fetch_error hf hh (fetch_of_lookup_none hb hop)
  refine ⟨hstep, ?_, decode_cons_of_lookup_none hop⟩
  rw [stepRequest_of_fault hstep, markFaulted_pc]

/-- Settles O8: fetch decodes the bytes from PC up, of which the first is the byte at PC, or there is none. -/
theorem opcodeIsFetchedAtPcOrOutOfBounds : Obligations.OpcodeIsFetchedAtPcOrOutOfBounds := by
  intro s hf hh
  refine ⟨fun hend => step_of_fetch_error hf hh (fetch_past_end hend), fun b i hb hi => ?_⟩
  obtain ⟨rest, hdec⟩ := decode_of_fetch hi
  rw [maxWidth, bytesFrom_of_read8 hb] at hdec
  exact byteOf_of_lookup (lookup_of_decode_cons hdec)

end Sys2Proof.Machine
end

section
/-! PROOFS. Family 60_exceptions.md: the way out of Faulted (R186) and a run on a JUMP to itself (R195). -/

namespace Sys2Proof.Machine

/-! ### Faulted (R186) -/

/-- Marking a state that is marked already changes nothing. -/
theorem markFaulted_of_faulted {s : State} (h : s.faulted = true) : s.markFaulted = s := by
  rw [State.markFaulted, ← h]

theorem step_of_faulted {s : State} (h : s.faulted = true) : step s = .fault .alreadyFaulted := if_pos h

theorem stepRequest_of_faulted {s : State} (h : s.faulted = true) : s.stepRequest = (s, .err .alreadyFaulted) := by
  rw [stepRequest_of_fault (step_of_faulted h), markFaulted_of_faulted h]

theorem runRequest_of_faulted {s : State} (h : s.faulted = true) (fuel : Nat) :
    s.runRequest fuel = some (s, .err .alreadyFaulted) := if_pos h

/-- A load writes memory at most, whether or not its bytes fit (R212). -/
@[simp] theorem load_faulted (s : State) (offset : Nat) (bytes : List Byte) :
    (s.load offset bytes).1.faulted = s.faulted := by
  unfold State.load
  split
  · rfl
  · split <;> rfl

/-- Every request but `init` leaves Faulted as it is. -/
theorem serve_faulted_of_ne_init {s : State} (h : s.faulted = true) {r : Request} (hr : r ≠ .init) :
    (s.serve r).faulted = true := by
  cases r with
  | init => exact absurd rfl hr
  | load offset bytes => exact (load_faulted s offset bytes).trans h
  | step => rw [State.serve, stepRequest_of_faulted h, h]

/-- Settles O26, request by request: step and run stop at the `faulted` check, a load leaves the marker. -/
theorem faultedIsLeftOnlyByInit : Obligations.FaultedIsLeftOnlyByInit := by
  refine ⟨fun s h => ⟨step_of_faulted h, stepRequest_of_faulted h, runRequest_of_faulted h, init_faulted s,
    fun r hr => ?_⟩, fun c => rfl⟩
  by_contra hne
  exact Bool.false_ne_true (hr.symm.trans (serve_faulted_of_ne_init h hne))

/-! ### The instruction whose bytes stand at PC -/

/-- A well-formed instruction is decoded from its encoding, whatever follows (R7, R84). -/
theorem decode_encode_append {m : Maps} {i : Instr} (h : i.wf m = true) (rest : List Byte) :
    decode m (encode m i ++ rest) = .ok (i, rest) := by
  obtain ⟨hop, hslots⟩ := Bool.and_eq_true_iff.1 h
  rw [encode_eq_cons, List.cons_append, decode_cons_of_lookup (lookup_byteOf hop), decodeOperands_encode hslots]

/-- Fetch answers the well-formed instruction whose encoding stands at PC. -/
theorem fetch_of_bytesAt_encode {s : State} {i : Instr} (hwf : i.wf s.maps = true)
    (hbytes : BytesAt s.mem s.pc.toNat (encode s.maps i)) : s.fetch = .ok i := by
  have hlen : (encode s.maps i).length ≤ maxWidth := by
    rw [encode_length]
    exact (width_bounds _).2
  apply fetch_of_decode
  rw [bytesFrom_of_bytesAt hbytes hlen]
  exact decode_encode_append hwf _

/-- A step outside the terminal statuses runs what it fetches, with `started` set (R91). -/
theorem step_of_fetch {s : State} {i : Instr} (hf : s.faulted = false) (hh : s.hlt = false) (h : s.fetch = .ok i) :
    step s = exec i { s with started := true } := by
  simp [step, hf, hh, h]

/-! ### A JUMP to itself (R195) -/

/-- The machine can step, and fetches a JUMP whose operand is PC. -/
structure State.AtJumpToItself (s : State) : Prop where
  faulted : s.faulted = false
  hlt     : s.hlt = false
  fetch   : s.fetch = .ok (.jump s.pc)

/-- A step on a JUMP to itself sets `started` and changes nothing else. -/
theorem State.AtJumpToItself.step_eq {s : State} (h : s.AtJumpToItself) : step s = .next { s with started := true } :=
  step_of_fetch h.faulted h.hlt h.fetch

/-- The step leads to the same JUMP: nothing the situation speaks of depends on `started`. -/
theorem State.AtJumpToItself.started {s : State} (h : s.AtJumpToItself) :
    State.AtJumpToItself { s with started := true } :=
  ⟨h.faulted, h.hlt, h.fetch⟩

theorem State.AtJumpToItself.stepRequest_eq {s : State} (h : s.AtJumpToItself) :
    s.stepRequest = ({ s with started := true }, .ok .running) := by
  simp only [State.stepRequest, h.step_eq, h.started.hlt, Bool.false_eq_true, if_false]

/-- The loop of `run` is still on the JUMP when the fuel is used up. -/
theorem State.AtJumpToItself.runLoop_eq_none {s : State} (h : s.AtJumpToItself) (fuel : Nat) :
    s.runLoop fuel = none := by
  induction fuel generalizing s with
  | zero => simp [State.runLoop, h.hlt]
  | succ fuel ih => simpa [State.runLoop, h.hlt, h.stepRequest_eq] using ih h.started

/-- Settles O31: the bytes at PC are fetched as the JUMP, and every step leads back to it. -/
theorem runNeverReturnsOnAJumpToItself : Obligations.RunNeverReturnsOnAJumpToItself := by
  intro s hf hh hwf hbytes fuel
  have hjump : s.AtJumpToItself := ⟨hf, hh, fetch_of_bytesAt_encode hwf hbytes⟩
  rw [State.runRequest, if_neg (by simp [hf])]
  exact hjump.runLoop_eq_none fuel

end Sys2Proof.Machine
end

section
/-! PROOFS. Family 70_reset_and_hazards.md: the lifecycle table of the run status (R216). -/

namespace Sys2Proof.Machine

/-! ### The run status as its three sources: `faulted`, HLT and `started` (R31) -/

theorem status_eq_faulted_iff (s : State) : s.status = .faulted ↔ s.faulted = true := by
  unfold State.status
  split_ifs <;> simp_all

theorem status_eq_halted_iff (s : State) : s.status = .halted ↔ s.faulted = false ∧ s.hlt = true := by
  unfold State.status
  split_ifs <;> simp_all

theorem status_eq_ready_iff (s : State) :
    s.status = .ready ↔ s.faulted = false ∧ s.hlt = false ∧ s.started = false := by
  unfold State.status
  split_ifs <;> simp_all

theorem status_eq_running_iff (s : State) :
    s.status = .running ↔ s.faulted = false ∧ s.hlt = false ∧ s.started = true := by
  unfold State.status
  split_ifs <;> simp_all

/-- Outside the terminal statuses `faulted` and HLT are clear. -/
theorem markers_clear_of_ready_or_running {s : State} (h : s.status = .ready ∨ s.status = .running) :
    s.faulted = false ∧ s.hlt = false := by
  rcases h with h | h
  · obtain ⟨hf, hh, -⟩ := (status_eq_ready_iff s).1 h
    exact ⟨hf, hh⟩
  · obtain ⟨hf, hh, -⟩ := (status_eq_running_iff s).1 h
    exact ⟨hf, hh⟩

/-! ### Construction, `init` and loads -/

/-- HLT is a bit of FLAGS (R31). -/
theorem hlt_of_flags_eq_zero {s : State} (h : s.flags = 0) : s.hlt = false := by
  rw [State.hlt, h]
  decide

/-- The status after construction is Ready (R33). -/
theorem new_status (c : Config) : (State.new c).status = .ready :=
  (status_eq_ready_iff _).2 ⟨rfl, hlt_of_flags_eq_zero rfl, rfl⟩

/-- The status after `init` is Ready (R34). -/
theorem init_status (s : State) : s.init.status = .ready :=
  (status_eq_ready_iff _).2 ⟨rfl, hlt_of_flags_eq_zero rfl, rfl⟩

/-- A load writes memory at most, which the status does not depend on (R212). -/
theorem load_status (s : State) (offset : Nat) (bytes : List Byte) : (s.load offset bytes).1.status = s.status := by
  unfold State.load
  split
  · rfl
  · split <;> rfl

/-! ### No instruction and no step is refused: every arm of execute has a meaning -/

theorem loadAndAdvance_ne_refused (s : State) (op : Mnemonic) (dst : Slot) (a : Nat) (r : Refusal) :
    s.loadAndAdvance op dst a ≠ .refused r := by
  unfold State.loadAndAdvance
  split <;> nofun

theorem storeAndAdvance_ne_refused (s : State) (op : Mnemonic) (a : Nat) (v : Word) (r : Refusal) :
    s.storeAndAdvance op a v ≠ .refused r := by
  unfold State.storeAndAdvance
  split <;> nofun

theorem exec_ne_refused (i : Instr) (s : State) (r : Refusal) : exec i s ≠ .refused r := by
  cases i with
  | halt | compare | jump | jumpeq | jumplt | jumpgt | jumplte | jumpgte | movlr | movrr | add | subtract | multiply
  | increment | decrement | and | or | xor | not | shiftleft | shiftright => nofun
  | movlm | movrm | movlir => exact storeAndAdvance_ne_refused _ _ _ _ r
  | movemr | moveirr => exact loadAndAdvance_ne_refused _ _ _ _ r
  | moveirm =>
    simp only [exec, execMoveirm]
    split
    · nofun
    · exact storeAndAdvance_ne_refused _ _ _ _ r
  | moveimr =>
    simp only [exec, execMoveimr]
    split
    · nofun
    · exact loadAndAdvance_ne_refused _ _ _ _ r
  | divide =>
    simp only [exec, execDivide]
    split <;> nofun

theorem step_ne_refused (s : State) (r : Refusal) : step s ≠ .refused r := by
  unfold step
  split
  · nofun
  · split
    · nofun
    · split
      · nofun
      · exact exec_ne_refused _ _ r

/-! ### A step outside the terminal statuses -/

/-- A step that completes answers by the HLT bit of the state it leaves (R91, R214). -/
theorem stepRequest_of_next {s t : State} (h : step s = .next t) :
    s.stepRequest = (t, .ok (if t.hlt then .halted else .running)) := by
  simp only [State.stepRequest, h]

/-- An instruction that runs leaves `faulted` clear and `started` set (R91). -/
theorem markers_of_step_next {s t : State} (hh : s.hlt = false) (h : step s = .next t) :
    t.faulted = false ∧ t.started = true := by
  obtain ⟨hf, ⟨hh', -⟩ | ⟨-, i, -, hexec⟩⟩ := step_next_cases h
  · exact absurd (hh.symm.trans hh') Bool.false_ne_true
  · have hsame := exec_sameInstance hexec
    exact ⟨hsame.faulted.trans hf, hsame.started⟩

/-- The three rows of R216 for a step in Ready or Running. -/
theorem stepRequest_cases_of_hlt_clear {s : State} (hh : s.hlt = false) :
    (∃ t, s.stepRequest = (t, .ok .running) ∧ t.hlt = false ∧ t.status = .running) ∨
    (∃ t, s.stepRequest = (t, .ok .halted) ∧ t.hlt = true ∧ t.status = .halted) ∨
    (∃ t e, s.stepRequest = (t, .err e) ∧ t.status = .faulted) := by
  cases hstep : step s with
  | next t =>
    obtain ⟨hf, hst⟩ := markers_of_step_next hh hstep
    have hreq := stepRequest_of_next hstep
    cases ht : t.hlt with
    | false => exact .inl ⟨t, by simpa [ht] using hreq, ht, (status_eq_running_iff t).2 ⟨hf, ht, hst⟩⟩
    | true => exact .inr (.inl ⟨t, by simpa [ht] using hreq, ht, (status_eq_halted_iff t).2 ⟨hf, ht⟩⟩)
  | fault e =>
    exact .inr (.inr ⟨_, e, stepRequest_of_fault hstep, (status_eq_faulted_iff _).2 (markFaulted_faulted s)⟩)
  | refused r => exact absurd hstep (step_ne_refused s r)

/-! ### Halted (R187) -/

theorem step_of_halted {s : State} (hf : s.faulted = false) (hh : s.hlt = true) : step s = .next s := by
  simp [step, hf, hh]

theorem stepRequest_of_halted {s : State} (hf : s.faulted = false) (hh : s.hlt = true) :
    s.stepRequest = (s, .ok .halted) := by
  rw [stepRequest_of_next (step_of_halted hf hh), if_pos hh]

/-- The loop of `run` tests HLT before its first step, whatever the fuel (R215). -/
theorem runLoop_of_hlt {s : State} (hh : s.hlt = true) (fuel : Nat) : s.runLoop fuel = some (s, .ok .halted) := by
  cases fuel <;> exact if_pos hh

theorem runRequest_of_halted {s : State} (hf : s.faulted = false) (hh : s.hlt = true) (fuel : Nat) :
    s.runRequest fuel = some (s, .ok .halted) := by
  rw [State.runRequest, if_neg (by simp [hf]), runLoop_of_hlt hh]

/-- Settles O29, row by row: where the machine is made, loaded, stepped, halted and faulted. -/
theorem statusFollowsTheLifecycleTable : Obligations.StatusFollowsTheLifecycleTable := by
  refine ⟨new_status, init_status, load_status, fun s h => ?_, fun s h => ?_, fun s h => ?_⟩
  · exact stepRequest_cases_of_hlt_clear (markers_clear_of_ready_or_running h).2
  · obtain ⟨hf, hh⟩ := (status_eq_halted_iff s).1 h
    exact ⟨by rw [stepRequest_of_halted hf hh], fun n => by rw [runRequest_of_halted hf hh, Option.map_some]⟩
  · have hf := (status_eq_faulted_iff s).1 h
    exact ⟨stepRequest_of_faulted hf, runRequest_of_faulted hf⟩

end Sys2Proof.Machine
end

section
/-! PROOFS. Encoding: decode and encode are inverse (30_encoding.md sections 1 to 3), injective maps (R7), the operand
loop (R88) and selector bytes (R23). -/

namespace Sys2Proof.Machine

/-! ### Decode and encode -/

/-- Settles O1: the opcode byte looks up its mnemonic, whose operands read back from the encoder's bytes. -/
theorem decodeOfEncodeIsTheInstruction : Obligations.DecodeOfEncodeIsTheInstruction :=
  fun _ _ rest h => decode_encode_append h rest

/-- Settles O2: the opcode byte is the mnemonic's, and operands that decode are written as the encoder writes them. -/
theorem decodedBytesAreTheEncoding : Obligations.DecodedBytesAreTheEncoding :=
  fun _ _ _ _ => eq_encode_append_of_decode

/-- Settles O4: each byte string is decoded by computation. -/
theorem writtenOutBytesDecodeToTheirInstructions : Obligations.WrittenOutBytesDecodeToTheirInstructions :=
  ⟨rfl, rfl, rfl, rfl, rfl, rfl, rfl, rfl, rfl, rfl⟩

/-! ### Injective maps (R7) -/

/-- Maps are injective exactly when every opcode byte and every selector byte names one thing only. -/
theorem maps_wf_iff (m : Maps) : m.wf = true ↔
    (∀ op, m.opcodes.selectsOnly op = true) ∧ ∀ sl, m.selectors.selectsOnly sl = true := by
  rw [Maps.wf, Bool.and_eq_true, opcodes_injective_iff, selectors_injective_iff]

theorem instr_wf_iff (m : Maps) (i : Instr) : i.wf m = true ↔
    m.opcodes.selectsOnly i.mnemonic = true ∧ ∀ sl ∈ i.slots, m.selectors.selectsOnly sl = true := by
  rw [Instr.wf, Bool.and_eq_true, List.all_eq_true]

/-- Zero bytes are operands of every mnemonic under the default maps. -/
theorem decodeOperands_zeros (op : Mnemonic) : ∃ r, decodeOperands Maps.default op [0, 0, 0, 0] = .ok r := by
  cases op <;> exact ⟨_, rfl⟩

/-- Every mnemonic is the mnemonic of an instruction. -/
theorem exists_instr_of_mnemonic (op : Mnemonic) : ∃ i : Instr, i.mnemonic = op := by
  obtain ⟨⟨i, rest⟩, h⟩ := decodeOperands_zeros op
  exact ⟨i, (decodeOperands_ok h).1⟩

/-- Settles O3: every mnemonic occurs in an instruction, and every slot in an INCREMENT. -/
theorem mapsAreInjectiveExactlyWhenEveryInstructionIsWellFormed :
    Obligations.MapsAreInjectiveExactlyWhenEveryInstructionIsWellFormed := by
  intro m
  rw [maps_wf_iff]
  constructor
  · rintro ⟨hops, hslots⟩ i
    exact (instr_wf_iff m i).2 ⟨hops _, fun sl _ => hslots sl⟩
  · refine fun h => ⟨fun op => ?_, fun sl => ?_⟩
    · obtain ⟨i, rfl⟩ := exists_instr_of_mnemonic op
      exact ((instr_wf_iff m i).1 (h i)).1
    · exact ((instr_wf_iff m (.increment sl)).1 (h _)).2 sl (List.mem_singleton.2 rfl)

/-! ### Fetch and the operand loop (R86 to R90) -/

/-- What the operand loop answers when the decoder answers `d`: the instruction's slots and values, or the error raised. -/
def operandsOf (d : Decoded) : Except Fault (List Slot × List Word) :=
  match d with
  | .ok (i, _) => .ok (i.slots, i.values)
  | .error e => .error (Fault.ofDecode e)

/-- A REGISTER operand is read alike from the fetched bytes and by the loop, if what follows it is. -/
theorem operandsOf_withSlot {s : State} {a n : Nat} {k : Slot → List Byte → Decoded} {kinds : List OperandKind}
    {slots : List Slot} {values : List Word}
    (h : ∀ sl, operandsOf (k sl (s.mem.bytesFrom (a + 1) n)) = s.readOperands kinds (a + 1) (slots ++ [sl]) values) :
    operandsOf (withSlot s.maps (s.mem.bytesFrom a (n + 1)) k) =
      s.readOperands (.register :: kinds) a slots values := by
  rw [State.readOperands]
  cases hr : s.mem.read8 a with
  | error e =>
    obtain ⟨hend, rfl⟩ := (read8_error_iff _ _ _).1 hr
    rw [bytesFrom_past_end hend]
    rfl
  | ok b =>
    rw [bytesFrom_of_read8 hr]
    simp only [withSlot]
    cases s.maps.resolve b with
    | none => rfl
    | some sl => exact h sl

/-- A 16-bit field is fetched whole or not at all: two bytes at `a`, or at most one before the end of memory. -/
theorem withWord_bytesFrom_ok {m : Memory} {a : Nat} {v : Word} (h : m.read16 a = .ok v) (n : Nat)
    (k : Word → List Byte → Decoded) : withWord (m.bytesFrom a (n + 2)) k = k v (m.bytesFrom (a + 2) n) := by
  obtain ⟨hbound, rfl⟩ := (read16_ok_iff m a v).1 h
  rw [Memory.bytesFrom, if_pos (by omega), Memory.bytesFrom, if_pos (by omega)]
  rfl

theorem withWord_bytesFrom_error {m : Memory} {a : Nat} {e : Fault} (h : m.read16 a = .error e) (n : Nat)
    (k : Word → List Byte → Decoded) : withWord (m.bytesFrom a (n + 2)) k = .error .outOfBounds := by
  obtain ⟨hend, -⟩ := (read16_error_iff m a e).1 h
  rw [Memory.bytesFrom]
  split
  · rw [bytesFrom_past_end (by omega)]
    rfl
  · rfl

/-- A LITERAL or ADDRESS operand is read alike from the fetched bytes and by the loop, if what follows it is. -/
theorem operandsOf_withWord {s : State} {a n : Nat} {kind : OperandKind} {k : Word → List Byte → Decoded}
    {kinds : List OperandKind} {slots : List Slot} {values : List Word} (hkind : kind ≠ .register)
    (h : ∀ v, operandsOf (k v (s.mem.bytesFrom (a + 2) n)) = s.readOperands kinds (a + 2) slots (values ++ [v])) :
    operandsOf (withWord (s.mem.bytesFrom a (n + 2)) k) = s.readOperands (kind :: kinds) a slots values := by
  cases hr : s.mem.read16 a with
  | error e =>
    rw [withWord_bytesFrom_error hr]
    obtain ⟨-, rfl⟩ := (read16_error_iff _ _ _).1 hr
    cases kind with
    | register => exact absurd rfl hkind
    | literal | address => simp only [State.readOperands, hr]; rfl
  | ok v =>
    rw [withWord_bytesFrom_ok hr, h v]
    cases kind with
    | register => exact absurd rfl hkind
    | literal | address => simp only [State.readOperands, hr]; rfl

/-- The formats read the operands of a mnemonic as the loop over the operand table does. -/
theorem operandsOf_decodeOperands (s : State) (op : Mnemonic) (a : Nat) :
    operandsOf (decodeOperands s.maps op (s.mem.bytesFrom a 4)) = s.readOperands op.operands a [] [] := by
  cases op with
  | halt => rfl
  | jump | jumpeq | jumplt | jumpgt | jumplte | jumpgte =>
    simp only [decodeOperands, formatA]
    exact operandsOf_withWord (by decide) fun _ => rfl
  | increment | decrement | not => exact operandsOf_withSlot fun _ => rfl
  | movlm =>
    simp only [decodeOperands, formatLA]
    exact operandsOf_withWord (by decide) fun _ => operandsOf_withWord (by decide) fun _ => rfl
  | movlr | movemr | movlir | moveimr =>
    simp only [decodeOperands, formatLR]
    exact operandsOf_withWord (by decide) fun _ => operandsOf_withSlot fun _ => rfl
  | movrm | moveirm | shiftleft | shiftright =>
    exact operandsOf_withSlot fun _ => operandsOf_withWord (by decide) fun _ => rfl
  | compare | movrr | moveirr | add | subtract | multiply | divide | and | or | xor =>
    exact operandsOf_withSlot fun _ => operandsOf_withSlot fun _ => rfl

/-- Settles O6: the opcode byte is read and looked up alike, and the operands of its mnemonic are. -/
theorem fetchAgreesWithTheOperandLoop : Obligations.FetchAgreesWithTheOperandLoop := by
  intro s
  cases hb : s.mem.read8 s.pc.toNat with
  | error e =>
    obtain ⟨hend, rfl⟩ := (read8_error_iff _ _ _).1 hb
    simp only [State.decodeByRules, hb, fetch_past_end hend]
    rfl
  | ok b =>
    cases hop : s.maps.lookup b with
    | none =>
      simp only [State.decodeByRules, hb, hop, fetch_of_lookup_none hb hop]
      rfl
    | some op =>
      have hdec : decode s.maps (s.mem.bytesFrom s.pc.toNat maxWidth) =
          decodeOperands s.maps op (s.mem.bytesFrom (s.pc.toNat + 1) 4) := by
        rw [maxWidth, bytesFrom_of_read8 hb, decode_cons_of_lookup hop]
      simp only [State.decodeByRules, hb, hop, ← operandsOf_decodeOperands]
      cases hops : decodeOperands s.maps op (s.mem.bytesFrom (s.pc.toNat + 1) 4) with
      | error e =>
        rw [fetch_of_decode_error (hdec.trans hops)]
        rfl
      | ok r =>
        obtain ⟨i, rest⟩ := r
        obtain ⟨rfl, -⟩ := decodeOperands_ok hops
        rw [fetch_of_decode (hdec.trans hops)]
        rfl

/-! ### Selector bytes (R23) -/

theorem withSlot_of_resolve {m : Maps} {b : Byte} {sl : Slot} (h : m.resolve b = some sl) (rest : List Byte)
    (k : Slot → List Byte → Decoded) : withSlot m (b :: rest) k = k sl rest := by
  simp only [withSlot, h]

theorem withSlot_of_resolve_none {m : Maps} {b : Byte} (h : m.resolve b = none) (rest : List Byte)
    (k : Slot → List Byte → Decoded) : withSlot m (b :: rest) k = .error (.invalidRegister b) := by
  simp only [withSlot, h]

/-- A mnemonic whose first operand is a REGISTER begins by reading a selector byte. -/
theorem decodeOperands_register_first (m : Maps) {op : Mnemonic} {kinds : List OperandKind}
    (h : op.operands = .register :: kinds) : ∃ k, ∀ bs, decodeOperands m op bs = withSlot m bs k := by
  cases op with
  | compare | movrr | movrm | moveirr | moveirm | add | subtract | multiply | divide | increment | decrement | and | or
  | xor | not | shiftleft | shiftright => exact ⟨_, fun _ => rfl⟩
  | halt | jump | jumpeq | jumplt | jumpgt | jumplte | jumpgte | movlr | movlm | movemr | movlir | moveimr => cases h

/-- A mnemonic with two REGISTER operands reads two selector bytes. -/
theorem decodeOperands_two_registers (m : Maps) {op : Mnemonic} (h : op.operands = [.register, .register]) :
    ∃ k : Slot → Slot → List Byte → Decoded, ∀ bs, decodeOperands m op bs =
      withSlot m bs fun a rest => withSlot m rest (k a) := by
  cases op with
  | compare | movrr | moveirr | add | subtract | multiply | divide | and | or | xor => exact ⟨_, fun _ => rfl⟩
  | halt | jump | jumpeq | jumplt | jumpgt | jumplte | jumpgte | movlr | movlm | movemr | movlir | moveimr | increment
  | decrement | not | movrm | moveirm | shiftleft | shiftright => cases h

/-- A mnemonic with a 16-bit field and then a REGISTER reads two bytes, then a selector byte. -/
theorem decodeOperands_word_then_register (m : Maps) {op : Mnemonic} {kind : OperandKind}
    (h : op.operands = [kind, .register]) (hkind : kind ≠ .register) :
    ∃ k : Word → Slot → List Byte → Decoded, ∀ bs, decodeOperands m op bs =
      withWord bs fun v rest => withSlot m rest (k v) := by
  cases op with
  | movlr | movemr | movlir | moveimr =>
    simp only [decodeOperands, formatLR]
    exact ⟨_, fun _ => rfl⟩
  | compare | movrr | moveirr | add | subtract | multiply | divide | and | or | xor => cases h; exact absurd rfl hkind
  | halt | jump | jumpeq | jumplt | jumpgt | jumplte | jumpgte | movlm | increment | decrement | not | movrm | moveirm
  | shiftleft | shiftright => cases h

/-- Settles O9: a selector byte is resolved where its REGISTER operand is read, before anything after it. -/
theorem unknownSelectorIsADecodeError : Obligations.UnknownSelectorIsADecodeError := by
  refine ⟨fun m sl h => resolve_byteOf (((maps_wf_iff m).1 h).2 sl),
    fun m x b op kinds rest hop hb hops => ?_, fun m x a b op sl rest hop hb hops ha => ?_,
    fun m x lo hi b op kind rest hop hb hops hkind => ?_⟩
  all_goals
    rw [decode_cons_of_lookup hop]
    have hnone := (resolve_none_iff m b).2 hb
  · obtain ⟨k, hk⟩ := decodeOperands_register_first m hops
    rw [hk, withSlot_of_resolve_none hnone]
  · obtain ⟨k, hk⟩ := decodeOperands_two_registers m hops
    rw [hk, withSlot_of_resolve ha, withSlot_of_resolve_none hnone]
  · obtain ⟨k, hk⟩ := decodeOperands_word_then_register m hops hkind
    rw [hk, withWord, withSlot_of_resolve_none hnone]

end Sys2Proof.Machine
end

section
/-! PROOFS. Memory as the host sees it: byte writes (20_memory.md sections 2, 5 and 7) and the canonical form (log 4). -/

namespace Sys2Proof.Machine

/-- Settles O13: the write stores the low byte at its address, and reads elsewhere find the old bytes in the same bounds. -/
theorem byteWritesReadBackAndTouchNothingElse : Obligations.ByteWritesReadBackAndTouchNothingElse := by
  intro m t a v h
  obtain ⟨hbound, rfl⟩ := (write8_ok_iff m t a v).1 h
  refine ⟨⟨lowByte v, (read8_ok_iff _ _ _).2 ⟨hbound, (byteAt_setByte_same m a _).symm⟩, lowByte_toNat v⟩, fun b hb => ?_⟩
  simp only [Memory.read8, setByte_size, byteAt_setByte_other m _ hb]

/-! ### The canonical form -/

/-- Cells at rising addresses are fixed by their addresses. -/
theorem cell_eq_of_fst_eq {l : List Host.Cell} (h : l.Pairwise fun c d => c.1 < d.1) {c d : Host.Cell} (hc : c ∈ l)
    (hd : d ∈ l) (he : c.1 = d.1) : c = d := by
  have hnodup : (l.map Prod.fst).Nodup := List.pairwise_map.2 (h.imp fun hlt => Nat.ne_of_lt hlt)
  exact List.inj_on_of_nodup_map hnodup hc hd he

/-- A byte that does not read as an unlisted address does is the byte of a cell. -/
theorem mem_cells_of_byteAt_ne {m : Memory} {a : Nat} (h : m.byteAt a ≠ Memory.unlisted) : (a, m.byteAt a) ∈ m.cells := by
  unfold Memory.byteAt at h ⊢
  split at h
  · rename_i c hfind
    have ha : c.1 = a := by simpa using List.find?_some hfind
    have hc := List.mem_of_find?_eq_some hfind
    simpa only [hfind, ← ha] using hc
  · exact absurd rfl h

/-- In canonical memory every cell is what its address reads as. -/
theorem byteAt_of_mem_cells {m : Memory} (h : m.wf = true) {c : Host.Cell} (hc : c ∈ m.cells) : m.byteAt c.1 = c.2 := by
  obtain ⟨hsorted, -⟩ := (wf_iff m).1 h
  unfold Memory.byteAt
  split
  · rename_i d hfind
    have hd : d.1 = c.1 := by simpa using List.find?_some hfind
    rw [cell_eq_of_fst_eq hsorted (List.mem_of_find?_eq_some hfind) hc hd]
  · rename_i hfind
    exact absurd (beq_self_eq_true c.1) (List.find?_eq_none.1 hfind c hc)

/-- The cells of canonical memory are its bytes that an unlisted address would not read as. -/
theorem mem_cells_iff {m : Memory} (h : m.wf = true) (c : Host.Cell) :
    c ∈ m.cells ↔ m.byteAt c.1 = c.2 ∧ c.2 ≠ Memory.unlisted := by
  constructor
  · exact fun hc => ⟨byteAt_of_mem_cells h hc, (((wf_iff m).1 h).2 c hc).2⟩
  · rintro ⟨hbyte, hne⟩
    have hmem := mem_cells_of_byteAt_ne (m := m) (a := c.1) (by rwa [hbyte])
    rwa [hbyte] at hmem

/-- Lists of cells at rising addresses with the same cells are equal. -/
theorem cells_eq_of_mem_iff {l l' : List Host.Cell} (hl : l.Pairwise fun c d => c.1 < d.1)
    (hl' : l'.Pairwise fun c d => c.1 < d.1) (h : ∀ c, c ∈ l ↔ c ∈ l') : l = l' := by
  have hne : ∀ {c d : Host.Cell}, c.1 < d.1 → c ≠ d := fun hlt he => Nat.lt_irrefl _ (he ▸ hlt)
  have hperm := (List.perm_ext_iff_of_nodup (hl.imp hne) (hl'.imp hne)).2 h
  exact hperm.eq_of_pairwise (fun _ _ _ _ h1 h2 => absurd h1 (Nat.lt_asymm h2)) hl hl'

/-- Settles O14: the bytes of canonical memory fix its cells, and the order of the cells fixes their list. -/
theorem memoriesThatReadAlikeAreEqual : Obligations.MemoriesThatReadAlikeAreEqual := by
  intro m t hm ht hsize hbytes
  have hcells : m.cells = t.cells := cells_eq_of_mem_iff ((wf_iff m).1 hm).1 ((wf_iff t).1 ht).1 fun c => by
    rw [mem_cells_iff hm, mem_cells_iff ht, hbytes]
  cases m
  cases t
  cases hsize
  cases hcells
  rfl

end Sys2Proof.Machine
end

section
/-! PROOFS. What the host does to a machine: construction, `init`, `load` (70_reset_and_hazards.md sections 1 to 3), and
the invariant that every interaction keeps (10_state.md sections 1 and 6). -/

namespace Sys2Proof.Machine

/-! ### Construction and `init` (R33, R34) -/

/-- Settles O15: `new` writes each of these fields. -/
theorem constructionZeroesEverything : Obligations.ConstructionZeroesEverything :=
  fun c => ⟨read_new c, fun _ => rfl, rfl, rfl, new_status c⟩

/-- Settles O17: `init` is `new` with the memory and the maps of the state. -/
theorem initZeroesRegistersAndKeepsMemory : Obligations.InitZeroesRegistersAndKeepsMemory :=
  fun s => ⟨read_init s, init_status s, init_mem s, init_maps s⟩

/-! ### The first step after construction (R217) -/

/-- With the default maps zeroed memory holds a HALT at address 0. -/
theorem fetch_new_default {n : Nat} (h : n ≠ 0) :
    (State.new { memorySize := n, maps := Maps.default }).fetch = .ok .halt := by
  have hread : (State.new { memorySize := n, maps := Maps.default }).mem.read8
      (State.new { memorySize := n, maps := Maps.default }).pc.toNat = .ok 0 :=
    (read8_ok_iff _ _ _).2 ⟨Nat.pos_of_ne_zero h, rfl⟩
  apply fetch_of_decode
  rw [maxWidth, bytesFrom_of_read8 hread]
  rfl

/-- Settles O16: memory without a byte fails the opcode fetch, and any other gives the HALT at address 0. -/
theorem firstStepAfterConstructionHaltsAtAddressZero : Obligations.FirstStepAfterConstructionHaltsAtAddressZero := by
  intro n
  split
  · rename_i hn
    subst hn
    exact step_of_fetch_error rfl (hlt_of_flags_eq_zero rfl) (fetch_past_end Nat.zero_lt_one)
  · rename_i hn
    have hflags : (0x0020 : Word) = 0 ||| maskHlt := by decide
    rw [step_of_fetch rfl (hlt_of_flags_eq_zero rfl) (fetch_new_default hn), hflags]
    rfl

/-! ### `load` (R212) -/

theorem load_of_too_long {s : State} {bytes : List Byte} (h : s.mem.size < bytes.length) (offset : Nat) :
    s.load offset bytes = (s, .error .outOfMemory) := if_pos h

theorem load_of_past_end {s : State} {offset : Nat} {bytes : List Byte} (hlen : bytes.length ≤ s.mem.size)
    (h : s.mem.size < offset + bytes.length) : s.load offset bytes = (s, .error .badOffset) := by
  rw [State.load, if_neg (Nat.not_lt.2 hlen), if_pos h]

theorem load_of_fits {s : State} {offset : Nat} {bytes : List Byte} (h : offset + bytes.length ≤ s.mem.size) :
    s.load offset bytes = ({ s with mem := s.mem.storeBytes offset bytes }, .ok ()) := by
  rw [State.load, if_neg (by omega), if_neg (by omega)]

/-- Everything the state after a load can be: the state before it, or its bytes stored inside the buffer. -/
theorem load_fst_cases (s : State) (offset : Nat) (bytes : List Byte) :
    (s.load offset bytes).1 = s ∨ (offset + bytes.length ≤ s.mem.size ∧
      (s.load offset bytes).1 = { s with mem := s.mem.storeBytes offset bytes }) := by
  unfold State.load
  split
  · exact .inl rfl
  · split
    · exact .inl rfl
    · exact .inr ⟨by omega, rfl⟩

/-- Settles O18: the two checks in order, then the stored bytes and their frame. -/
theorem loadChecksThenWritesExactlyItsBytes : Obligations.LoadChecksThenWritesExactlyItsBytes := by
  refine fun s offset bytes => ⟨fun h => load_of_too_long h offset, load_of_past_end, fun h => ?_⟩
  refine ⟨_, load_of_fits h, fun k b => byteAt_storeBytes_at s.mem offset, fun x hx => ?_,
    read_with_mem s _, ⟨rfl, rfl, storeBytes_size _ _ _, rfl⟩⟩
  rcases hx with hx | hx
  · exact byteAt_storeBytes_below s.mem bytes hx
  · exact byteAt_storeBytes_above s.mem bytes hx

/-! ### The invariant -/

/-- A state in which a step has run meets the invariant by its memory and maps alone. -/
theorem inv_of_started {s : State} (hmem : s.mem.wf = true) (hmaps : s.maps.wf = true) (h : s.started = true) : s.Inv :=
  ⟨hmem, hmaps, fun h' => absurd (h'.symm.trans h) Bool.false_ne_true⟩

/-- Settles O19: memory after `new` is canonical and its registers are zeros, so the maps decide. -/
theorem constructionMeetsTheInvariant : Obligations.ConstructionMeetsTheInvariant := by
  have hnew : ∀ c : Config, (State.new c).Inv ↔ c.maps.wf = true :=
    fun c => ⟨fun h => h.maps, fun h => ⟨wf_new c, h, fun _ => read_new c⟩⟩
  exact ⟨hnew, (hnew Config.default).2 default_maps_wf⟩

/-- Settles O20: a halted step changes nothing, and an instruction keeps memory canonical, keeps the maps and runs with
`started` set. -/
theorem everyStepKeepsTheInvariant : Obligations.EveryStepKeepsTheInvariant := by
  intro s t hinv h
  obtain ⟨-, ⟨-, rfl⟩ | ⟨-, i, -, hexec⟩⟩ := step_next_cases h
  · exact hinv
  · have hsame := exec_sameInstance hexec
    refine inv_of_started (exec_mem_wf hexec hinv.memory) ?_ hsame.started
    rw [hsame.maps]
    exact hinv.maps

/-- The marker of an error is no part of the invariant (R183). -/
theorem markFaulted_inv {s : State} (h : s.Inv) : s.markFaulted.Inv :=
  ⟨h.memory, h.maps, fun hs sl => (read_markFaulted s sl).trans (h.unrun hs sl)⟩

theorem init_inv {s : State} (h : s.Inv) : s.init.Inv := ⟨h.memory, h.maps, fun _ => read_init s⟩

theorem load_inv {s : State} (h : s.Inv) (offset : Nat) (bytes : List Byte) : (s.load offset bytes).1.Inv := by
  rcases load_fst_cases s offset bytes with heq | ⟨hfits, heq⟩
  · rwa [heq]
  · rw [heq]
    exact ⟨storeBytes_wf h.memory hfits, h.maps, fun hs sl => (read_with_mem s _ sl).trans (h.unrun hs sl)⟩

/-- The state a step request leaves: the next state, or the state before it marked as faulted (R183, R214). -/
theorem stepRequest_fst_cases (s : State) :
    step s = .next s.stepRequest.1 ∨ s.stepRequest.1 = s.markFaulted := by
  cases h : step s with
  | next t => exact .inl (by rw [stepRequest_of_next h])
  | fault e => exact .inr (by rw [stepRequest_of_fault h])
  | refused r => exact absurd h (step_ne_refused s r)

theorem serve_inv {s : State} (h : s.Inv) (r : Request) : (s.serve r).Inv := by
  cases r with
  | init => exact init_inv h
  | load offset bytes => exact load_inv h offset bytes
  | step =>
    rw [State.serve]
    rcases stepRequest_fst_cases s with hnext | hmark
    · exact everyStepKeepsTheInvariant _ _ h hnext
    · rw [hmark]
      exact markFaulted_inv h

theorem step_next_size_maps {s t : State} (h : step s = .next t) : t.mem.size = s.mem.size ∧ t.maps = s.maps := by
  obtain ⟨-, ⟨-, rfl⟩ | ⟨-, i, -, hexec⟩⟩ := step_next_cases h
  · exact ⟨rfl, rfl⟩
  · have hsame := exec_sameInstance hexec
    exact ⟨hsame.size, hsame.maps⟩

/-- Settles O52, request by request. -/
theorem capacityAndMapsNeverChange : Obligations.CapacityAndMapsNeverChange := by
  intro s r
  cases r with
  | init => exact ⟨rfl, rfl⟩
  | load offset bytes =>
    rw [State.serve]
    rcases load_fst_cases s offset bytes with heq | ⟨-, heq⟩
    · rw [heq]
      exact ⟨rfl, rfl⟩
    · rw [heq]
      exact ⟨storeBytes_size _ _ _, rfl⟩
  | step =>
    rw [State.serve]
    rcases stepRequest_fst_cases s with hnext | hmark
    · exact step_next_size_maps hnext
    · rw [hmark]
      exact ⟨rfl, rfl⟩

/-- Settles O53, from the invariant's lemma of each request and the frame of the capacity and the maps. -/
theorem everyRequestKeepsTheInvariant : Obligations.EveryRequestKeepsTheInvariant :=
  fun s r h => ⟨serve_inv h r, capacityAndMapsNeverChange s r⟩

/-- The invariant, the capacity and the maps are kept along every sequence of requests. -/
theorem serveAll_inv {s : State} (h : s.Inv) (requests : List Request) :
    (s.serveAll requests).Inv ∧ (s.serveAll requests).mem.size = s.mem.size ∧ (s.serveAll requests).maps = s.maps := by
  induction requests generalizing s with
  | nil => exact ⟨h, rfl, rfl⟩
  | cons r rs ih =>
    obtain ⟨hinv, hsize, hmaps⟩ := everyRequestKeepsTheInvariant s r h
    obtain ⟨hinv', hsize', hmaps'⟩ := ih hinv
    exact ⟨hinv', hsize'.trans hsize, hmaps'.trans hmaps⟩

/-- Settles O21, by induction on the requests from the state after construction. -/
theorem everyHostSessionKeepsTheInvariant : Obligations.EveryHostSessionKeepsTheInvariant :=
  fun c requests h => serveAll_inv ((constructionMeetsTheInvariant.1 c).2 h) requests

end Sys2Proof.Machine
end

section
/-! PROOFS. The step (30_encoding.md section 4), what it can raise (60_exceptions.md sections 1 to 3), and `run` as repeated
steps (70_reset_and_hazards.md section 3). -/

namespace Sys2Proof.Machine

/-! ### What a step runs -/

/-- Settles O22: fetch answers what the bytes at PC decode to, and the step runs it. -/
theorem stepRunsTheDecodedInstruction : Obligations.StepRunsTheDecodedInstruction :=
  fun _ _ _ hf hh hdec => step_of_fetch hf hh (fetch_of_decode hdec)

/-- Settles O23: fetch answers the well-formed instruction whose encoding stands at PC, and the step runs it. -/
theorem stepRunsTheInstructionWhoseBytesStandAtPc : Obligations.StepRunsTheInstructionWhoseBytesStandAtPc :=
  fun _ _ hf hh hwf hbytes => step_of_fetch hf hh (fetch_of_bytesAt_encode hwf hbytes)

/-- Settles O51: neither the terminal statuses nor fetch read `started`, and execute runs with it set. -/
theorem readyAndRunningStepTheSame : Obligations.ReadyAndRunningStepTheSame := by
  intro s b hf hh
  cases hi : s.fetch with
  | ok i => rw [step_of_fetch hf hh hi, step_of_fetch (s := { s with started := b }) hf hh hi]
  | error e => rw [step_of_fetch_error hf hh hi, step_of_fetch_error (s := { s with started := b }) hf hh hi]

/-! ### What a step can raise (R180) -/

/-- Settles O24: the third outcome is a refusal, which no state answers. -/
theorem everyStepAnswersAStateOrANamedError : Obligations.EveryStepAnswersAStateOrANamedError := by
  intro s
  cases h : step s with
  | next t => exact .inl ⟨t, rfl⟩
  | fault e => exact .inr ⟨e, rfl⟩
  | refused r => exact absurd h (step_ne_refused s r)

/-- A load raises OutOfBounds past the end of memory, and nothing else. -/
theorem loadAndAdvance_fault_iff (s : State) (op : Mnemonic) (dst : Slot) (a : Nat) (e : Fault) :
    s.loadAndAdvance op dst a = .fault e ↔ s.mem.size < a + 2 ∧ e = .outOfBounds := by
  by_cases hbound : a + 2 ≤ s.mem.size
  · obtain ⟨t, ht, -⟩ := loadAndAdvance_wrote s op dst hbound
    simp [ht, hbound]
  · simp [loadAndAdvance_fault s op dst hbound, Nat.lt_of_not_le hbound, eq_comm]

/-- A store raises OutOfBounds past the end of memory, and nothing else. -/
theorem storeAndAdvance_fault_iff (s : State) (op : Mnemonic) (a : Nat) (v : Word) (e : Fault) :
    s.storeAndAdvance op a v = .fault e ↔ s.mem.size < a + 2 ∧ e = .outOfBounds := by
  by_cases hbound : a + 2 ≤ s.mem.size
  · obtain ⟨t, ht, -⟩ := storeAndAdvance_stored s op v hbound
    simp [ht, hbound]
  · simp [storeAndAdvance_fault s op v hbound, Nat.lt_of_not_le hbound, eq_comm]

/-- The pointer of MOVEIMR is the word at the ADDRESS operand, when that lies in memory (R148). -/
theorem pointerAddress_of_bound {s : State} {addr : Word} (h : addr.toNat + 2 ≤ s.mem.size) :
    s.pointerAddress addr = .ok (wordAt s.mem addr.toNat) := by
  have hr : s.mem.read16 (absoluteAddress addr) = .ok _ := (read16_ok_iff _ _ _).2 ⟨h, rfl⟩
  simp only [State.pointerAddress, hr, wordOf_toNat]
  rfl

theorem pointerAddress_past_end {s : State} {addr : Word} (h : ¬ addr.toNat + 2 ≤ s.mem.size) :
    s.pointerAddress addr = .error .outOfBounds := by
  have hr : s.mem.read16 (absoluteAddress addr) = .error .outOfBounds :=
    (read16_error_iff _ _ _).2 ⟨Nat.lt_of_not_le h, rfl⟩
  simp only [State.pointerAddress, hr]

/-! ### MOVEIRM, MOVEIMR and DIVIDE by their first check -/

theorem exec_moveirm_of_bound {s : State} {regA : Slot} (addr : Word)
    (h : s.indirectAddress regA + 2 ≤ s.mem.size) : exec (.moveirm regA addr) s =
      s.storeAndAdvance .moveirm (absoluteAddress addr)
        (wordOf (s.mem.byteAt (s.indirectAddress regA)) (s.mem.byteAt (s.indirectAddress regA + 1))) := by
  have hr : s.mem.read16 (s.indirectAddress regA) = .ok _ := (read16_ok_iff _ _ _).2 ⟨h, rfl⟩
  simp only [exec, execMoveirm, hr]

theorem exec_moveirm_past_end {s : State} {regA : Slot} (addr : Word)
    (h : ¬ s.indirectAddress regA + 2 ≤ s.mem.size) : exec (.moveirm regA addr) s = .fault .outOfBounds := by
  have hr : s.mem.read16 (s.indirectAddress regA) = .error .outOfBounds :=
    (read16_error_iff _ _ _).2 ⟨Nat.lt_of_not_le h, rfl⟩
  simp only [exec, execMoveirm, hr, raise]

theorem exec_moveimr_of_bound {s : State} {addr : Word} (regA : Slot) (h : addr.toNat + 2 ≤ s.mem.size) :
    exec (.moveimr addr regA) s = s.loadAndAdvance .moveimr regA (wordAt s.mem addr.toNat) := by
  simp only [exec, execMoveimr, pointerAddress_of_bound h]

theorem exec_moveimr_past_end {s : State} {addr : Word} (regA : Slot) (h : ¬ addr.toNat + 2 ≤ s.mem.size) :
    exec (.moveimr addr regA) s = .fault .outOfBounds := by
  simp only [exec, execMoveimr, pointerAddress_past_end h, raise]

theorem exec_divide_of_zero {s : State} (regA : Slot) {regB : Slot} (h : s.read regB = 0) :
    exec (.divide regA regB) s = .fault .arithmeticError := if_pos h

theorem exec_divide_of_ne_zero {s : State} (regA : Slot) {regB : Slot} (h : s.read regB ≠ 0) :
    exec (.divide regA regB) s = s.twoRegister .divide (fun a b => a / b) regA regB := if_neg h

/-- Every error of the execute phase: an access past the end of memory, or a division by 0. -/
theorem exec_fault_cases {i : Instr} {s : State} {e : Fault} (h : exec i s = .fault e) :
    (e = .outOfBounds ∧ i.mnemonic ∈ [.movlm, .movrm, .movemr, .movlir, .moveirr, .moveirm, .moveimr]) ∨
    (e = .arithmeticError ∧ ∃ regA regB, i = .divide regA regB ∧ s.read regB = 0) := by
  cases i with
  | halt | compare | jump | jumpeq | jumplt | jumpgt | jumplte | jumpgte | movlr | movrr | add | subtract | multiply
  | increment | decrement | and | or | xor | not | shiftleft | shiftright => cases h
  | movlm | movrm | movlir => exact .inl ⟨((storeAndAdvance_fault_iff _ _ _ _ _).1 h).2, by simp [Instr.mnemonic]⟩
  | movemr | moveirr => exact .inl ⟨((loadAndAdvance_fault_iff _ _ _ _ _).1 h).2, by simp [Instr.mnemonic]⟩
  | moveirm regA addr =>
    refine .inl ⟨?_, by simp [Instr.mnemonic]⟩
    by_cases hbound : s.indirectAddress regA + 2 ≤ s.mem.size
    · rw [exec_moveirm_of_bound addr hbound] at h
      exact ((storeAndAdvance_fault_iff _ _ _ _ _).1 h).2
    · cases (exec_moveirm_past_end addr hbound).symm.trans h
      rfl
  | moveimr addr regA =>
    refine .inl ⟨?_, by simp [Instr.mnemonic]⟩
    by_cases hbound : addr.toNat + 2 ≤ s.mem.size
    · rw [exec_moveimr_of_bound regA hbound] at h
      exact ((loadAndAdvance_fault_iff _ _ _ _ _).1 h).2
    · cases (exec_moveimr_past_end regA hbound).symm.trans h
      rfl
  | divide regA regB =>
    by_cases hzero : s.read regB = 0
    · cases (exec_divide_of_zero regA hzero).symm.trans h
      exact .inr ⟨rfl, regA, regB, rfl, hzero⟩
    · rw [exec_divide_of_ne_zero regA hzero] at h
      cases h

/-- Settles O25: an outcome is a next state, one of the two errors, or a refusal, which no instruction answers. -/
theorem executeRaisesOnlyTheTabledErrors : Obligations.ExecuteRaisesOnlyTheTabledErrors := by
  intro i s
  cases h : exec i s with
  | next t => exact .inl ⟨t, rfl⟩
  | fault e =>
    rcases exec_fault_cases h with ⟨rfl, hmem⟩ | ⟨rfl, hdiv⟩
    · exact .inr (.inl ⟨rfl, hmem⟩)
    · exact .inr (.inr ⟨rfl, hdiv⟩)
  | refused r => exact absurd h (exec_ne_refused i s r)

/-- Settles O28: the state a step request leaves on an error is the state before it, marked. -/
theorem errorsLeaveEverythingButTheFaultedMarker : Obligations.ErrorsLeaveEverythingButTheFaultedMarker :=
  fun s _ h => ⟨s.markFaulted, stepRequest_of_fault h, (status_eq_faulted_iff _).2 (markFaulted_faulted s),
    read_markFaulted s, markFaulted_mem s, markFaulted_started s, markFaulted_maps s⟩

/-! ### Halted (R187) -/

/-- Every request but `init` leaves Halted as it is. -/
theorem serve_halted_of_ne_init {s : State} (h : s.status = .halted) {r : Request} (hr : r ≠ .init) :
    (s.serve r).status = .halted := by
  cases r with
  | init => exact absurd rfl hr
  | load offset bytes => exact (load_status s offset bytes).trans h
  | step =>
    obtain ⟨hf, hh⟩ := (status_eq_halted_iff s).1 h
    rw [State.serve, stepRequest_of_halted hf hh, h]

theorem serveAll_halted {s : State} (h : s.status = .halted) {requests : List Request} (hinit : .init ∉ requests) :
    (s.serveAll requests).status = .halted := by
  induction requests generalizing s with
  | nil => exact h
  | cons r rs ih =>
    obtain ⟨hr, hrs⟩ := not_or.1 (List.mem_cons.not.1 hinit)
    exact ih (serve_halted_of_ne_init h (Ne.symm hr)) hrs

/-- Settles O27: step and run answer at once, and every other request than `init` leaves the status. -/
theorem haltedIsLeftOnlyByInit : Obligations.HaltedIsLeftOnlyByInit := by
  intro s h
  obtain ⟨hf, hh⟩ := (status_eq_halted_iff s).1 h
  exact ⟨step_of_halted hf hh, stepRequest_of_halted hf hh, runRequest_of_halted hf hh, fun _ => serveAll_halted h⟩

/-! ### `run` and repeated steps (R215) -/

/-- Steps in Halted change nothing, however many. -/
theorem runSteps_of_halted {s : State} (hf : s.faulted = false) (hh : s.hlt = true) (n : Nat) :
    runSteps n s = .next s := by
  induction n with
  | zero => rfl
  | succ n ih => rw [runSteps_succ_next n (step_of_halted hf hh), ih]

/-- What `run` answers where `n` steps end in `o`: Halted with the state they reach, nothing if HLT is clear there, or the
error they raise. -/
def RunAnswers (answer : Option (State × Reply)) (o : Host.Outcome State Fault Refusal) : Prop :=
  match o with
  | .next t => answer = if t.hlt then some (t, .ok .halted) else none
  | .fault e => ∃ t, answer = some (t, .err e)
  | .refused _ => False

theorem runLoop_succ_of_next {s t : State} (hh : s.hlt = false) (h : step s = .next t) (fuel : Nat) :
    s.runLoop (fuel + 1) = t.runLoop fuel := by
  simp only [State.runLoop, hh, stepRequest_of_next h, Bool.false_eq_true, if_false]

theorem runLoop_succ_of_fault {s : State} {e : Fault} (hh : s.hlt = false) (h : step s = .fault e) (fuel : Nat) :
    s.runLoop (fuel + 1) = some (s.markFaulted, .err e) := by
  simp only [State.runLoop, hh, stepRequest_of_fault h, Bool.false_eq_true, if_false]

/-- The loop of `run` answers as its steps end, by induction on the fuel. -/
theorem runLoop_answers {s : State} (hf : s.faulted = false) (n : Nat) : RunAnswers (s.runLoop n) (runSteps n s) := by
  induction n generalizing s with
  | zero => rfl
  | succ n ih =>
    cases hh : s.hlt with
    | true =>
      rw [runSteps_of_halted hf hh, runLoop_of_hlt hh, RunAnswers, if_pos hh]
    | false =>
      cases hstep : step s with
      | next t =>
        rw [runSteps_succ_next n hstep, runLoop_succ_of_next hh hstep]
        exact ih (markers_of_step_next hh hstep).1
      | fault e =>
        rw [runSteps_succ_fault n hstep, runLoop_succ_of_fault hh hstep]
        exact ⟨_, rfl⟩
      | refused r => exact absurd hstep (step_ne_refused s r)

/-- Settles O30: each way the steps can end decides the answer of `run`. -/
theorem runAgreesWithRepeatedSteps : Obligations.RunAgreesWithRepeatedSteps := by
  intro n s hf
  have hanswer := runLoop_answers hf n
  have hrun : s.runRequest n = s.runLoop n := if_neg (by simp [hf])
  rw [hrun]
  cases hsteps : runSteps n s with
  | next t =>
    rw [hsteps, RunAnswers] at hanswer
    cases hh : t.hlt with
    | true =>
      rw [hanswer, if_pos hh]
      grind
    | false =>
      rw [hanswer, if_neg (by simp [hh])]
      grind
  | fault e =>
    rw [hsteps] at hanswer
    obtain ⟨t, ht⟩ := hanswer
    rw [ht]
    grind
  | refused r =>
    rw [hsteps] at hanswer
    exact hanswer.elim

end Sys2Proof.Machine
end

section
/-! PROOFS. Halt, compare and control transfer (40_control.md). -/

namespace Sys2Proof.Machine

/-! ### HALT (R120) -/

/-- The HLT mask has bit 5 alone (R28). -/
theorem maskHlt_getLsbD (k : Nat) : maskHlt.getLsbD k = (k == 5) := by
  have hmask : maskHlt = BitVec.twoPow 16 5 := by decide
  rw [hmask, BitVec.getLsbD_twoPow]
  simp [eq_comm, beq_eq_decide]

/-- Settles O32: FLAGS with the bit of the HLT mask set is all that the state after HALT differs in. -/
theorem haltSetsHltAndStaysInPlace : Obligations.HaltSetsHltAndStaysInPlace := by
  intro s
  have hbits : ∀ k, (s.flags ||| maskHlt).getLsbD k = (s.flags.getLsbD k || k == 5) := fun k => by
    rw [BitVec.getLsbD_or, maskHlt_getLsbD]
  refine ⟨_, rfl, hbits, fun sl h => read_with_flags s _ h, fun _ => rfl, ⟨rfl, rfl, rfl, rfl⟩, fun hf => ?_⟩
  have hh : State.hlt { s with flags := s.flags ||| maskHlt } = true := by
    rw [hlt_eq_bit, hbits 5]
    simp
  exact ⟨(status_eq_halted_iff _).2 ⟨hf, hh⟩, step_of_halted hf hh⟩

/-! ### COMPARE (R121) -/

/-- The three values COMPARE gives FLAGS: LT and LTE, EQ with LTE and GTE, or GT and GTE. -/
theorem compareFlags_eq (a b : Word) : compareFlags a b =
    if a.toNat < b.toNat then 0x0006 else if a.toNat = b.toNat then 0x0015 else 0x0018 := by
  unfold compareFlags
  rcases Nat.lt_trichotomy a.toNat b.toNat with h | h | h
  · rw [if_pos h, decide_eq_false (show ¬ a.toNat ≥ b.toNat by omega), decide_eq_false (show ¬ a.toNat > b.toNat by omega),
      decide_eq_true (Nat.le_of_lt h), decide_eq_true h, decide_eq_false (Nat.ne_of_lt h)]
    rfl
  · rw [h]
    simp [orIf, maskGte, maskLte, maskEq]
  · rw [if_neg (Nat.lt_asymm h), if_neg (Nat.ne_of_gt h), decide_eq_true (Nat.le_of_lt h), decide_eq_true h,
      decide_eq_false (Nat.not_le_of_lt h), decide_eq_false (Nat.lt_asymm h), decide_eq_false (Nat.ne_of_gt h)]
    rfl

/-- Settles O33: FLAGS is the slot written, with the value of the operands' order. -/
theorem compareSetsFlagsByTheUnsignedOrder : Obligations.CompareSetsFlagsByTheUnsignedOrder := by
  intro regA regB s
  obtain ⟨t, hexec, hwrote⟩ := putAndAdvance_wrote s .compare .flags (compareFlags (s.read regA) (s.read regB))
  rw [compareFlags_eq, apply_ite BitVec.toNat, apply_ite BitVec.toNat] at hwrote
  exact ⟨t, hexec, hwrote⟩

/-! ### Jumps (R122 to R127) -/

/-- Settles O34: PC is the operand, where the next step fetches. -/
theorem jumpSetsPcToItsOperand : Obligations.JumpSetsPcToItsOperand :=
  fun addr s => ⟨s.jumpTo addr, rfl, rfl, fun _ => read_jumpTo s addr, fun _ => rfl, ⟨rfl, rfl, rfl, rfl⟩,
    fun hf hh hend => step_of_fetch_error hf hh (fetch_past_end hend)⟩

/-- A conditional jump of 3 bytes that tests bit `k`. -/
theorem jumpsOnBit_of_exec {i : Instr} {op : Mnemonic} {mask addr : Word} {k : Nat} {s : State}
    (hexec : exec i s = .next (s.jumpIf op mask addr)) (hmask : mask = BitVec.twoPow 16 k) (hk : k < 16)
    (hwidth : op.width = 3) : JumpsOnBit i k addr s := by
  rw [hmask, jumpIf_twoPow s op hk] at hexec
  cases hbit : s.flags.getLsbD k with
  | true =>
    rw [hbit, if_pos rfl] at hexec
    exact ⟨_, hexec, fun _ => rfl, fun h => absurd (h.symm.trans hbit) Bool.false_ne_true,
      fun _ => read_jumpTo s addr, fun _ => rfl, ⟨rfl, rfl, rfl, rfl⟩⟩
  | false =>
    rw [hbit, if_neg Bool.false_ne_true] at hexec
    refine ⟨_, hexec, fun h => absurd (hbit.symm.trans h) Bool.false_ne_true, fun _ => ?_,
      fun _ => read_advance s op, fun _ => rfl, ⟨rfl, rfl, rfl, rfl⟩⟩
    rw [PcFallsThrough, advance_toNat, hwidth]

/-- Settles O35: each jump's mask is one bit. -/
theorem conditionalJumpsFollowTheirOneFlagBit : Obligations.ConditionalJumpsFollowTheirOneFlagBit :=
  fun _ _ => ⟨jumpsOnBit_of_exec (mask := maskEq) rfl (by decide) (by decide) rfl,
    jumpsOnBit_of_exec (mask := maskLt) rfl (by decide) (by decide) rfl,
    jumpsOnBit_of_exec (mask := maskLte) rfl (by decide) (by decide) rfl,
    jumpsOnBit_of_exec (mask := maskGt) rfl (by decide) (by decide) rfl,
    jumpsOnBit_of_exec (mask := maskGte) rfl (by decide) (by decide) rfl⟩

end Sys2Proof.Machine
end

section
/-! PROOFS. Data movement (41_data_movement.md), and stored instructions (20_memory.md section 7). -/

namespace Sys2Proof.Machine

/-! ### Register moves and loads -/

/-- Settles O36: both moves are one write of their destination. -/
theorem registerMovesWriteTheirDestination : Obligations.RegisterMovesWriteTheirDestination :=
  fun s => ⟨fun literal regA => putAndAdvance_wrote s .movlr regA literal,
    fun regA regB => putAndAdvance_wrote s .movrr regB (s.read regA)⟩

/-- Settles O38: each is a load, for MOVEIMR at the pointer it reads first. -/
theorem loadsWriteTheWordTheyRead : Obligations.LoadsWriteTheWordTheyRead := by
  refine fun s => ⟨fun addr regA h => loadAndAdvance_wrote s .movemr regA h,
    fun regA regB h => loadAndAdvance_wrote s .moveirr regB h, fun addr regA hptr hword => ?_⟩
  rw [exec_moveimr_of_bound regA hptr]
  exact loadAndAdvance_wrote s .moveimr regA hword

/-! ### Stores -/

/-- A storing instruction whose words lie in memory completes, and stores the word of `storeOf` at its target. -/
theorem exec_stores {i : Instr} {s : State} {a : Nat} {v : Word} (h : storeOf s i = some (a, v))
    (hbound : a + 2 ≤ s.mem.size)
    (hsource : ∀ regA addr, i = .moveirm regA addr → s.indirectAddress regA + 2 ≤ s.mem.size) :
    ∃ t, exec i s = .next t ∧ StoredWord a v i.mnemonic.width s t := by
  cases i with
  | movlm | movrm | movlir =>
    cases h
    exact storeAndAdvance_stored s _ _ hbound
  | moveirm regA addr =>
    cases h
    rw [exec_moveirm_of_bound addr (hsource regA addr rfl)]
    exact storeAndAdvance_stored s _ _ hbound
  | halt | compare | jump | jumpeq | jumplt | jumpgt | jumplte | jumpgte | movlr | movrr | movemr | moveirr | moveimr
  | add | subtract | multiply | divide | increment | decrement | and | or | xor | not | shiftleft | shiftright => cases h

/-- Settles O37, for each instruction from its target and word. -/
theorem storesWriteTheirWordAtTheirTarget : Obligations.StoresWriteTheirWordAtTheirTarget := by
  refine fun s => ⟨fun literal addr h => exec_stores rfl h nofun, fun regA addr h => exec_stores rfl h nofun,
    fun literal regA h => exec_stores rfl h nofun, fun regA addr hsource h => ?_⟩
  obtain ⟨t, hexec, hstored⟩ := exec_stores (i := .moveirm regA addr) (s := s) rfl h (by rintro _ _ ⟨⟩; exact hsource)
  exact ⟨t, _, hexec, wordOf_toNat _ _, hstored⟩

/-! ### The faults of the memory moves -/

theorem exec_moveirm_fault_iff (s : State) (regA : Slot) (addr : Word) :
    exec (.moveirm regA addr) s = .fault .outOfBounds ↔
      s.mem.size < (s.read regA).toNat + 2 ∨ s.mem.size < addr.toNat + 2 := by
  by_cases hsource : (s.read regA).toNat + 2 ≤ s.mem.size
  · rw [exec_moveirm_of_bound addr hsource, storeAndAdvance_fault_iff, and_iff_left rfl, or_iff_right (Nat.not_lt.2 hsource)]
    rfl
  · exact iff_of_true (exec_moveirm_past_end addr hsource) (.inl (Nat.lt_of_not_le hsource))

theorem exec_moveimr_fault_iff (s : State) (addr : Word) (regA : Slot) :
    exec (.moveimr addr regA) s = .fault .outOfBounds ↔
      s.mem.size < addr.toNat + 2 ∨ s.mem.size < wordAt s.mem addr.toNat + 2 := by
  by_cases hptr : addr.toNat + 2 ≤ s.mem.size
  · rw [exec_moveimr_of_bound regA hptr, loadAndAdvance_fault_iff, and_iff_left rfl, or_iff_right (Nat.not_lt.2 hptr)]
  · exact iff_of_true (exec_moveimr_past_end regA hptr) (.inl (Nat.lt_of_not_le hptr))

/-- Settles O39: five moves are one access, and MOVEIRM and MOVEIMR are two in order. -/
theorem memoryMovesFaultExactlyPastTheEnd : Obligations.MemoryMovesFaultExactlyPastTheEnd := by
  intro s
  have hload : ∀ op dst a, s.loadAndAdvance op dst a = .fault .outOfBounds ↔ s.mem.size < a + 2 :=
    fun op dst a => (loadAndAdvance_fault_iff s op dst a _).trans (and_iff_left rfl)
  have hstore : ∀ op a v, s.storeAndAdvance op a v = .fault .outOfBounds ↔ s.mem.size < a + 2 :=
    fun op a v => (storeAndAdvance_fault_iff s op a v _).trans (and_iff_left rfl)
  exact ⟨fun _ _ => hstore _ _ _, fun _ _ => hstore _ _ _, fun _ _ => hload _ _ _, fun _ _ => hstore _ _ _,
    fun _ _ => hload _ _ _, exec_moveirm_fault_iff s, exec_moveimr_fault_iff s⟩

/-! ### Stored instructions (R64) -/

theorem bytesAt_of_append {m : Memory} {a : Nat} {bs rest : List Byte} (h : BytesAt m a (bs ++ rest)) :
    BytesAt m a bs := by
  obtain ⟨hbound, hbytes⟩ := h
  rw [List.length_append] at hbound
  refine ⟨by omega, fun k b hk => hbytes k b ?_⟩
  obtain ⟨hlt, -⟩ := List.getElem?_eq_some_iff.1 hk
  rw [List.getElem?_append_left hlt, hk]

/-- The two bytes of a 16-bit write stand at its address. -/
theorem bytesAt_of_write16 {m t : Memory} {a : Nat} {v : Word} (h : m.write16 a v = .ok t) :
    BytesAt t a [lowByte v, highByte v] := by
  obtain ⟨hsize, hlo, hhi, -⟩ := write16_spec h
  have hbound := ((write16_ok_iff m t a v).1 h).1
  refine ⟨by rw [hsize]; exact hbound, fun k b hk => ?_⟩
  match k, hk with
  | 0, rfl => exact hlo
  | 1, rfl => exact hhi

/-- The next fetch at the target of a completed store decodes the instruction whose encoding the word holds. -/
theorem fetch_at_stored {s t : State} {i j : Instr} {p v : Word} {rest : List Byte} (hexec : exec i s = .next t)
    (hstore : storeOf s i = some (p.toNat, v)) (hwf : j.wf s.maps = true)
    (henc : encode s.maps j ++ rest = [lowByte v, highByte v]) : State.fetch { t with pc := p } = .ok j := by
  have hmaps := (exec_sameInstance hexec).maps
  rcases exec_next_mem hexec with ⟨hnone, -⟩ | ⟨a, w, hsome, hw⟩
  · exact nomatch hnone.symm.trans hstore
  · cases hsome.symm.trans hstore
    have hbytes : BytesAt t.mem p.toNat (encode t.maps j) :=
      bytesAt_of_append (rest := rest) (by rw [hmaps, henc]; exact bytesAt_of_write16 hw)
    exact fetch_of_bytesAt_encode (s := { t with pc := p }) (by rw [hmaps]; exact hwf) hbytes

/-- A storing instruction does not look at `started`. -/
theorem storeOf_with_started (s : State) (b : Bool) (i : Instr) : storeOf { s with started := b } i = storeOf s i := by
  cases i <;> simp [storeOf, State.indirectAddress]

/-- Settles O40: memory holds the stored word after the instruction, and the instruction was decoded before it ran. -/
theorem storedInstructionIsSeenByTheNextFetch : Obligations.StoredInstructionIsSeenByTheNextFetch := by
  refine ⟨fun s t i j p v rest => fetch_at_stored, fun s i p v hf hh hwf hbytes hstore hbound hsource => ?_⟩
  have hstore' : storeOf { s with started := true } i = some (p.toNat, v) := by rw [storeOf_with_started, hstore]
  have hsource' : ∀ regA addr, i = .moveirm regA addr →
      State.indirectAddress { s with started := true } regA + 2 ≤ s.mem.size := by
    simpa only [State.indirectAddress, read_with_started] using hsource
  obtain ⟨t, hexec, hstored⟩ := exec_stores hstore' hbound hsource'
  refine ⟨t, ?_, hstored, fun j rest hj henc => fetch_at_stored hexec hstore' hj henc⟩
  rw [step_of_fetch hf hh (fetch_of_bytesAt_encode hwf hbytes), hexec]

end Sys2Proof.Machine
end

section
/-! PROOFS. Arithmetic, logic and shift (42_alu.md): each is one write of its destination (R159), so what is left is the
value as a number. -/

namespace Sys2Proof.Machine

/-- A write of a slot, by the number written. -/
theorem putAndAdvance_wrote_toNat (s : State) (op : Mnemonic) (dst : Slot) {v : Word} {n : Nat} (h : v.toNat = n) :
    ∃ t, s.putAndAdvance op dst v = .next t ∧ WroteSlot dst n op.width s t :=
  h ▸ putAndAdvance_wrote s op dst v

/-- R161: the difference mod 2^16. -/
theorem sub_toNat (a b : Word) : (a - b).toNat = (a.toNat + 65536 - b.toNat) % 65536 := by
  have := b.isLt
  rw [BitVec.toNat_sub]
  congr 1
  omega

/-- R169: the complement is the difference to 0xFFFF. -/
theorem not_toNat (a : Word) : (~~~a).toNat = 0xFFFF - a.toNat := by
  rw [BitVec.toNat_not]

/-- R165: one less, mod 2^16. -/
theorem sub_one_toNat (a : Word) : (a - 1).toNat = (a.toNat + 65535) % 65536 := sub_toNat a 1

/-- R170: the product with a power of 2, mod 2^16, and 0 for a count of 16 or more (D6). -/
theorem shiftLeft_toNat (v count : Word) : (shiftLeft v count).toNat =
    if count.toNat ≥ 16 then 0 else v.toNat * 2 ^ count.toNat % 65536 := by
  unfold shiftLeft
  split
  · rfl
  · rw [BitVec.toNat_shiftLeft, Nat.shiftLeft_eq]

/-- R171: the unsigned quotient by a power of 2, and 0 for a count of 16 or more (D6). -/
theorem shiftRight_toNat (v count : Word) : (shiftRight v count).toNat =
    if count.toNat ≥ 16 then 0 else v.toNat / 2 ^ count.toNat := by
  unfold shiftRight
  split
  · rfl
  · rw [BitVec.toNat_ushiftRight, Nat.shiftRight_eq_div_pow]

/-- Settles O41: 16-bit addition, subtraction and multiplication as arithmetic mod 2^16. -/
theorem addSubtractMultiplyWrapModulo65536 : Obligations.AddSubtractMultiplyWrapModulo65536 :=
  fun _ regB s => ⟨putAndAdvance_wrote_toNat s .add regB (BitVec.toNat_add _ _),
    putAndAdvance_wrote_toNat s .subtract regB (sub_toNat _ _),
    putAndAdvance_wrote_toNat s .multiply regB (BitVec.toNat_mul _ _)⟩

/-- Settles O42: the divisor decides between the quotient and the error. -/
theorem divideTruncatesAndFaultsOnZero : Obligations.DivideTruncatesAndFaultsOnZero := by
  refine fun regA regB s => ⟨fun h => ?_, fun h => exec_divide_of_zero regA (BitVec.eq_of_toNat_eq h)⟩
  rw [exec_divide_of_ne_zero regA fun hzero => h (congrArg BitVec.toNat hzero)]
  exact putAndAdvance_wrote_toNat s .divide regB BitVec.toNat_udiv

/-- Settles O43: the addition and subtraction of 1 mod 2^16. -/
theorem incrementDecrementWrapModulo65536 : Obligations.IncrementDecrementWrapModulo65536 :=
  fun regA s => ⟨putAndAdvance_wrote_toNat s .increment regA (BitVec.toNat_add _ _),
    putAndAdvance_wrote_toNat s .decrement regA (sub_one_toNat _)⟩

/-- Settles O44: the operations on 16-bit vectors as operations on numbers. -/
theorem bitwiseInstructionsWriteTheBitwiseResult : Obligations.BitwiseInstructionsWriteTheBitwiseResult :=
  fun regA regB s => ⟨putAndAdvance_wrote_toNat s .and regB (BitVec.toNat_and _ _),
    putAndAdvance_wrote_toNat s .or regB (BitVec.toNat_or _ _),
    putAndAdvance_wrote_toNat s .xor regB (BitVec.toNat_xor _ _),
    putAndAdvance_wrote_toNat s .not regA (not_toNat _)⟩

/-- Settles O45: the shifts as multiplication and division by a power of 2, 0 from 16 up. -/
theorem shiftsAreLogicalWithFullCounts : Obligations.ShiftsAreLogicalWithFullCounts :=
  fun regA literal s => ⟨putAndAdvance_wrote_toNat s .shiftleft regA (shiftLeft_toNat _ literal),
    putAndAdvance_wrote_toNat s .shiftright regA (shiftRight_toNat _ literal)⟩

end Sys2Proof.Machine
end

section
/-! PROOFS. Rules of the whole machine: what an instruction can change (10_state.md sections 2, 4 and 5, 30_encoding.md
section 4), and that no meaning depends on the markers or the maps. -/

namespace Sys2Proof.Machine

/-! ### Registers, PC and HLT after an instruction -/

/-- Settles O46: outside PC a completed instruction writes FLAGS, its destination, or no slot. -/
theorem onlyTheDestinationRegisterChanges : Obligations.OnlyTheDestinationRegisterChanges := by
  intro i s t h sl hpc hmay
  rcases exec_next_cases h with ⟨hi, rfl⟩ | ⟨a, b, hi, rfl⟩ | ⟨dst, v, hdst, -, -, rfl⟩ | ⟨a, v, m, -, -, -, -, rfl⟩ |
    ⟨addr, -, -, -, -, rfl | rfl⟩
  · exact read_with_flags s _ fun hsl => hmay (.inr ⟨hsl, .inl hi⟩)
  · have hsl : sl ≠ .flags := fun hsl => hmay (.inr ⟨hsl, .inr ⟨a, b, hi⟩⟩)
    rw [read_advance _ _ hpc, read_write_other _ _ hsl]
  · have hsl : sl ≠ dst := by
      rintro rfl
      exact hmay (.inl hdst)
    rw [read_advance _ _ hpc, read_write_other _ _ hsl]
  · rw [read_advance _ _ hpc, read_with_mem]
  · exact read_jumpTo s addr hpc
  · exact read_advance s _ hpc

/-- The PC update of R93 from the state after execute, when that left PC. -/
theorem pcFallsThrough_advance {s u : State} (op : Mnemonic) (h : u.pc = s.pc) :
    PcFallsThrough s.pc (u.advance op).pc op.width := by
  rw [PcFallsThrough, advance_toNat, h]

/-- Settles O47: HALT has no PC update, a jump sets PC or falls through, and the rest advance. -/
theorem pcMovesByTheWidthOrToTheJumpOperand : Obligations.PcMovesByTheWidthOrToTheJumpOperand := by
  intro i s t h
  rcases exec_next_cases h with ⟨rfl, rfl⟩ | ⟨a, b, rfl, rfl⟩ | ⟨dst, v, hdst, -, hjump, rfl⟩ |
    ⟨a, v, m, hdst, hstore, hjump, -, rfl⟩ | ⟨addr, hdst, hstore, hjump, hwidth, ht⟩
  · exact ⟨fun _ => rfl, nofun, fun hne => absurd rfl hne⟩
  · exact ⟨nofun, nofun, fun _ _ _ => pcFallsThrough_advance .compare (write_pc s _ _)⟩
  · refine ⟨?_, fun addr hj => absurd (hjump.symm.trans hj) nofun, fun _ _ hne => pcFallsThrough_advance _ ?_⟩
    · rintro rfl
      exact nomatch hdst
    · rw [write_pc, if_neg]
      rintro rfl
      exact hne hdst
  · refine ⟨?_, fun addr hj => absurd (hjump.symm.trans hj) nofun, fun _ _ _ => pcFallsThrough_advance _ rfl⟩
    rintro rfl
    exact nomatch hstore
  · refine ⟨?_, fun addr' hj => ?_, fun _ hj => absurd (hjump.symm.trans hj) nofun⟩
    · rintro rfl
      exact nomatch hjump
    · cases hjump.symm.trans hj
      rcases ht with rfl | rfl
      · exact .inl rfl
      · exact .inr (hwidth ▸ pcFallsThrough_advance _ rfl)

/-- COMPARE clears HLT (R121). -/
theorem compareFlags_bit5 (a b : Word) : (compareFlags a b).getLsbD 5 = false := by
  rw [compareFlags_eq]
  split
  · rfl
  · split <;> rfl

/-- HLT is a bit of FLAGS, so it stays where FLAGS does. -/
theorem hlt_eq_of_flags_eq {s t : State} (h : t.flags = s.flags) : t.hlt = s.hlt := by
  rw [State.hlt, h, State.hlt]

/-- Settles O48: COMPARE clears HLT, and every other instruction but HALT leaves FLAGS unless it is the destination. -/
theorem onlyHaltOrAFlagsDestinationHalts : Obligations.OnlyHaltOrAFlagsDestinationHalts := by
  intro i s t hclear h hset
  by_contra hnot
  obtain ⟨hhalt, hdst⟩ := not_or.1 hnot
  by_cases hcmp : ∃ a b, i = .compare a b
  · obtain ⟨a, b, rfl⟩ := hcmp
    cases h
    rw [hlt_eq_bit] at hset
    exact Bool.false_ne_true ((compareFlags_bit5 _ _).symm.trans hset)
  · have hmay : ¬ mayChange i .flags := by
      rintro (hd | ⟨-, hh | hc⟩)
      · exact hdst hd
      · exact hhalt hh
      · exact hcmp hc
    have hflags : t.flags = s.flags := onlyTheDestinationRegisterChanges i s t h .flags nofun hmay
    exact Bool.false_ne_true (hclear.symm.trans ((hlt_eq_of_flags_eq hflags).symm.trans hset))

/-! ### A meaning commutes with any change of the markers and the maps -/

/-- The state with other markers and maps: the fields that stand outside what a program can reach. -/
def State.withOutside (s : State) (f b : Bool) (m : Maps) : State := { s with faulted := f, started := b, maps := m }

/-- An outcome with its next state changed. -/
def mapNext (g : State → State) : Host.Outcome State Fault Refusal → Host.Outcome State Fault Refusal
  | .next t => .next (g t)
  | .fault e => .fault e
  | .refused r => .refused r

section
variable (s : State) (f b : Bool) (m : Maps)

@[simp] theorem withOutside_read (sl : Slot) : (s.withOutside f b m).read sl = s.read sl := by cases sl <;> rfl

@[simp] theorem withOutside_indirectAddress (sl : Slot) :
    (s.withOutside f b m).indirectAddress sl = s.indirectAddress sl := by
  rw [State.indirectAddress, withOutside_read, State.indirectAddress]

@[simp] theorem withOutside_flags : (s.withOutside f b m).flags = s.flags := rfl
@[simp] theorem withOutside_mem : (s.withOutside f b m).mem = s.mem := rfl

@[simp] theorem withOutside_pointerAddress (addr : Word) :
    (s.withOutside f b m).pointerAddress addr = s.pointerAddress addr := rfl

theorem withOutside_write (sl : Slot) (v : Word) :
    (s.withOutside f b m).write sl v = (s.write sl v).withOutside f b m := by cases sl <;> rfl

theorem putAndAdvance_withOutside (op : Mnemonic) (dst : Slot) (v : Word) :
    (s.withOutside f b m).putAndAdvance op dst v = mapNext (·.withOutside f b m) (s.putAndAdvance op dst v) := by
  rw [State.putAndAdvance, withOutside_write]
  rfl

theorem loadAndAdvance_withOutside (op : Mnemonic) (dst : Slot) (a : Nat) :
    (s.withOutside f b m).loadAndAdvance op dst a = mapNext (·.withOutside f b m) (s.loadAndAdvance op dst a) := by
  unfold State.loadAndAdvance
  rw [withOutside_mem]
  cases s.mem.read16 a with
  | error e => rfl
  | ok v => exact putAndAdvance_withOutside s f b m op dst v

theorem storeAndAdvance_withOutside (op : Mnemonic) (a : Nat) (v : Word) :
    (s.withOutside f b m).storeAndAdvance op a v = mapNext (·.withOutside f b m) (s.storeAndAdvance op a v) := by
  unfold State.storeAndAdvance
  rw [withOutside_mem]
  cases s.mem.write16 a v with
  | error e => rfl
  | ok t => rfl

theorem jumpIf_withOutside (op : Mnemonic) (mask addr : Word) :
    (s.withOutside f b m).jumpIf op mask addr = (s.jumpIf op mask addr).withOutside f b m := by
  unfold State.jumpIf
  rw [withOutside_flags]
  split <;> rfl

/-- Every meaning is made of operations that neither read nor write the markers and the maps. -/
theorem exec_withOutside (i : Instr) :
    exec i (s.withOutside f b m) = mapNext (·.withOutside f b m) (exec i s) := by
  cases i with
  | halt | jump => rfl
  | jumpeq | jumplt | jumpgt | jumplte | jumpgte => exact congrArg Host.Outcome.next (jumpIf_withOutside s f b m _ _ _)
  | compare | movlr | movrr | add | subtract | multiply | increment | decrement | and | or | xor | not | shiftleft
  | shiftright =>
    simp only [exec, execCompare, execMovlr, execMovrr, execAdd, execSubtract, execMultiply, execIncrement, execDecrement,
      execAnd, execOr, execXor, execNot, execShiftleft, execShiftright, State.twoRegister, State.oneRegister,
      withOutside_read, putAndAdvance_withOutside]
  | divide regA regB =>
    by_cases hzero : s.read regB = 0
    · rw [exec_divide_of_zero regA hzero, exec_divide_of_zero regA ((withOutside_read s f b m regB).trans hzero)]
      rfl
    · rw [exec_divide_of_ne_zero regA hzero, exec_divide_of_ne_zero regA (by rwa [withOutside_read])]
      simp only [State.twoRegister, withOutside_read, putAndAdvance_withOutside]
  | movlm | movrm | movlir =>
    simp only [exec, execMovlm, execMovrm, execMovlir, withOutside_read, withOutside_indirectAddress,
      storeAndAdvance_withOutside]
  | movemr | moveirr =>
    simp only [exec, execMovemr, execMoveirr, withOutside_indirectAddress, loadAndAdvance_withOutside]
  | moveirm regA addr =>
    simp only [exec, execMoveirm, withOutside_indirectAddress, withOutside_mem]
    cases s.mem.read16 (s.indirectAddress regA) with
    | error e => rfl
    | ok v => exact storeAndAdvance_withOutside s f b m _ _ v
  | moveimr addr regA =>
    simp only [exec, execMoveimr, withOutside_pointerAddress]
    cases s.pointerAddress addr with
    | error e => rfl
    | ok a => exact loadAndAdvance_withOutside s f b m _ _ a

end

/-- Settles O49: the maps stay those of the state, which every instruction keeps. -/
theorem instructionsNeitherReadNorWriteTheMarkers : Obligations.InstructionsNeitherReadNorWriteTheMarkers := by
  intro i s f b
  have hcomm : exec i { s with faulted := f, started := b } = mapNext (·.withOutside f b s.maps) (exec i s) :=
    exec_withOutside s f b s.maps i
  refine ⟨fun t h => ?_, fun e h => by rw [hcomm, h, mapNext]⟩
  rw [hcomm, h, mapNext, State.withOutside, ← (exec_sameInstance h).maps]

/-- Settles O50: the markers stay those of the state, which every instruction keeps. -/
theorem meaningsDoNotDependOnTheMaps : Obligations.MeaningsDoNotDependOnTheMaps := by
  intro i s m
  have hcomm : exec i { s with maps := m } = mapNext (·.withOutside s.faulted s.started m) (exec i s) :=
    exec_withOutside s s.faulted s.started m i
  refine ⟨fun t h => ?_, fun e h => by rw [hcomm, h, mapNext]⟩
  rw [hcomm, h, mapNext, State.withOutside, ← (exec_sameInstance h).faulted, ← (exec_sameInstance h).started]

end Sys2Proof.Machine
end
